-- ==== Sys2Proof/Word.lean ====
section
/-! DEFINITION. The bit patterns and index types of the CORE (00_scope.md R7, R9).
Register contents, I, pc and instruction words are bit vectors, because rules shift, mask and wrap them.
Register numbers, key numbers and frame-buffer coordinates are bounded indexes. -/

namespace Sys2Proof

/-- One memory cell, general register or timer: 8 bits (R7 `REG_W`, `TIMER_W`). -/
abbrev Byte := BitVec 8

/-- An instruction word, the index register, the program counter or a stack entry: 16 bits (R7). -/
abbrev Word := BitVec 16

/-- A four-bit field of an instruction word (R101 `op`, `N`). -/
abbrev Nibble := BitVec 4

/-- The twelve-bit immediate `NNN` of an instruction word (R101). -/
abbrev Imm12 := BitVec 12

/-- The number of a general register, V0 to VF (R31). -/
abbrev RegIdx := Fin 16

/-- The number of a logical key (R39). -/
abbrev KeyIdx := Fin 16

/-- A frame-buffer column, 0 to 63 (R38). -/
abbrev Column := Fin 64

/-- A frame-buffer row, 0 to 31 (R38). -/
abbrev Row := Fin 32

/-- `zext_16(NNN)` of R102: the twelve-bit immediate as a sixteen-bit address. -/
def zext16 (nnn : Imm12) : Word := nnn.setWidth 16

end Sys2Proof
end

