-- ==== Sys2Proof/Syntax.lean ====
section
/-! DEFINITION. The instruction forms: one constructor per row of 30_encoding.md R104 (35 rows, R111).
Operand names are the spec's: `x` and `y` are the register fields X and Y, `nn` and `nnn` the immediates,
`n` the row count N (R101, R102). -/

namespace Sys2Proof

/-- The 35 forms of the opcode map (R104), in the order of its rows. -/
inductive Instr where
  /-- row 1, `00E0`: clear the screen (R240) -/
  | cls
  /-- row 2, `00EE`: return from subroutine (R141) -/
  | ret
  /-- row 3, `0NNN`: machine-code call (R140) -/
  | sys (nnn : Imm12)
  /-- row 4, `1NNN`: jump (R142) -/
  | jp (nnn : Imm12)
  /-- row 5, `2NNN`: call a subroutine (R143) -/
  | call (nnn : Imm12)
  /-- row 6, `3XNN`: skip if Vx equals the literal (R144) -/
  | seImm (x : RegIdx) (nn : Byte)
  /-- row 7, `4XNN`: skip if Vx differs from the literal (R145) -/
  | sneImm (x : RegIdx) (nn : Byte)
  /-- row 8, `5XY0`: skip if Vx equals Vy (R146) -/
  | seReg (x y : RegIdx)
  /-- row 9, `6XNN`: set Vx to the literal (R171) -/
  | ldImm (x : RegIdx) (nn : Byte)
  /-- row 10, `7XNN`: add the literal to Vx (R172) -/
  | addImm (x : RegIdx) (nn : Byte)
  /-- row 11, `8XY0`: copy Vy to Vx (R173) -/
  | ldReg (x y : RegIdx)
  /-- row 12, `8XY1`: bitwise OR (R174) -/
  | orReg (x y : RegIdx)
  /-- row 13, `8XY2`: bitwise AND (R175) -/
  | andReg (x y : RegIdx)
  /-- row 14, `8XY3`: bitwise exclusive OR (R176) -/
  | xorReg (x y : RegIdx)
  /-- row 15, `8XY4`: add with carry out (R177) -/
  | addReg (x y : RegIdx)
  /-- row 16, `8XY5`: Vx minus Vy (R178) -/
  | subReg (x y : RegIdx)
  /-- row 17, `8XY6`: shift right by one (R179) -/
  | shr (x y : RegIdx)
  /-- row 18, `8XY7`: Vy minus Vx (R180) -/
  | subn (x y : RegIdx)
  /-- row 19, `8XYE`: shift left by one (R181) -/
  | shl (x y : RegIdx)
  /-- row 20, `9XY0`: skip if Vx differs from Vy (R147) -/
  | sneReg (x y : RegIdx)
  /-- row 21, `ANNN`: set I to the literal (R210) -/
  | ldI (nnn : Imm12)
  /-- row 22, `BNNN`: jump with offset (R148) -/
  | jpV0 (nnn : Imm12)
  /-- row 23, `CXNN`: random byte masked by the literal (R182) -/
  | rnd (x : RegIdx) (nn : Byte)
  /-- row 24, `DXYN`: draw an N-row sprite (R241) -/
  | drw (x y : RegIdx) (n : Nibble)
  /-- row 25, `EX9E`: skip if the key in Vx is pressed (R271) -/
  | skp (x : RegIdx)
  /-- row 26, `EXA1`: skip if the key in Vx is not pressed (R272) -/
  | sknp (x : RegIdx)
  /-- row 27, `FX07`: read the delay timer (R274) -/
  | ldVxDt (x : RegIdx)
  /-- row 28, `FX0A`: wait for a key (R273) -/
  | ldVxK (x : RegIdx)
  /-- row 29, `FX15`: set the delay timer (R275) -/
  | ldDtVx (x : RegIdx)
  /-- row 30, `FX18`: set the sound timer (R276) -/
  | ldStVx (x : RegIdx)
  /-- row 31, `FX1E`: add Vx to I (R211) -/
  | addIVx (x : RegIdx)
  /-- row 32, `FX29`: point I at the glyph of the digit in Vx (R212) -/
  | ldFVx (x : RegIdx)
  /-- row 33, `FX33`: store the decimal digits of Vx (R213) -/
  | ldBVx (x : RegIdx)
  /-- row 34, `FX55`: store V0 to Vx at I (R214) -/
  | ldMemVx (x : RegIdx)
  /-- row 35, `FX65`: load V0 to Vx from I (R215) -/
  | ldVxMem (x : RegIdx)
  deriving DecidableEq, Repr

end Sys2Proof
end

