-- ==== Sys2Proof/Decode.lean ====
section
/-! DEFINITION. The decoder (30_encoding.md R101 to R105), total on every word and every list of bytes, and after it the
encoder, and the opcode map of R104 as a table to hold both against. -/

namespace Sys2Proof

/-! ## Fields (R101) -/

/-- `op = w[15:12]` -/
def opField (w : Word) : Nibble := w.extractLsb' 12 4
/-- `X = w[11:8]` -/
def xField (w : Word) : RegIdx := (w.extractLsb' 8 4).toFin
/-- `Y = w[7:4]` -/
def yField (w : Word) : RegIdx := (w.extractLsb' 4 4).toFin
/-- `N = w[3:0]` -/
def nField (w : Word) : Nibble := w.extractLsb' 0 4
/-- `NN = w[7:0]` -/
def nnField (w : Word) : Byte := w.extractLsb' 0 8
/-- `NNN = w[11:0]` -/
def nnnField (w : Word) : Imm12 := w.extractLsb' 0 12

/-! ## Decoding -/

/-- Why bytes are no instruction. -/
inductive Undecodable where
  /-- fewer than two bytes: every instruction is two (R100) -/
  | truncated
  /-- `5XYn` with n not 0 (R105) -/
  | group5 (w : Word)
  /-- `8XYn` with n one of 8, 9, A, B, C, D, F (R105) -/
  | group8 (w : Word)
  /-- `9XYn` with n not 0 (R105) -/
  | group9 (w : Word)
  /-- `EXkk` with kk neither 9E nor A1 (R105) -/
  | groupE (w : Word)
  /-- `FXkk` with kk none of the nine of R105 -/
  | groupF (w : Word)
  deriving DecidableEq, Repr

/-- Rows 11 to 19 of R104. -/
def decodeGroup8 (w : Word) : Except Undecodable Instr :=
  match nField w with
  | 0x0#4 => .ok (.ldReg (xField w) (yField w))
  | 0x1#4 => .ok (.orReg (xField w) (yField w))
  | 0x2#4 => .ok (.andReg (xField w) (yField w))
  | 0x3#4 => .ok (.xorReg (xField w) (yField w))
  | 0x4#4 => .ok (.addReg (xField w) (yField w))
  | 0x5#4 => .ok (.subReg (xField w) (yField w))
  | 0x6#4 => .ok (.shr (xField w) (yField w))
  | 0x7#4 => .ok (.subn (xField w) (yField w))
  | 0xE#4 => .ok (.shl (xField w) (yField w))
  | _ => .error (.group8 w)

/-- Rows 27 to 35 of R104. -/
def decodeGroupF (w : Word) : Except Undecodable Instr :=
  match nnField w with
  | 0x07#8 => .ok (.ldVxDt (xField w))
  | 0x0A#8 => .ok (.ldVxK (xField w))
  | 0x15#8 => .ok (.ldDtVx (xField w))
  | 0x18#8 => .ok (.ldStVx (xField w))
  | 0x1E#8 => .ok (.addIVx (xField w))
  | 0x29#8 => .ok (.ldFVx (xField w))
  | 0x33#8 => .ok (.ldBVx (xField w))
  | 0x55#8 => .ok (.ldMemVx (xField w))
  | 0x65#8 => .ok (.ldVxMem (xField w))
  | _ => .error (.groupF w)

/-- Rows 1 to 3 of R104: the only rows whose order matters. -/
def decodeGroup0 (w : Word) : Instr :=
  if w = 0x00E0#16 then .cls else if w = 0x00EE#16 then .ret else .sys (nnnField w)

/-- `decode(w)` of R104: the form of a word, or the space of R105 that it lies in. -/
def decodeWord (w : Word) : Except Undecodable Instr :=
  match opField w with
  | 0x0#4 => .ok (decodeGroup0 w)
  | 0x1#4 => .ok (.jp (nnnField w))
  | 0x2#4 => .ok (.call (nnnField w))
  | 0x3#4 => .ok (.seImm (xField w) (nnField w))
  | 0x4#4 => .ok (.sneImm (xField w) (nnField w))
  | 0x5#4 => if nField w = 0x0#4 then .ok (.seReg (xField w) (yField w)) else .error (.group5 w)
  | 0x6#4 => .ok (.ldImm (xField w) (nnField w))
  | 0x7#4 => .ok (.addImm (xField w) (nnField w))
  | 0x8#4 => decodeGroup8 w
  | 0x9#4 => if nField w = 0x0#4 then .ok (.sneReg (xField w) (yField w)) else .error (.group9 w)
  | 0xA#4 => .ok (.ldI (nnnField w))
  | 0xB#4 => .ok (.jpV0 (nnnField w))
  | 0xC#4 => .ok (.rnd (xField w) (nnField w))
  | 0xD#4 => .ok (.drw (xField w) (yField w) (nField w))
  | 0xE#4 =>
    if nnField w = 0x9E#8 then .ok (.skp (xField w))
    else if nnField w = 0xA1#8 then .ok (.sknp (xField w))
    else .error (.groupE w)
  | _ => decodeGroupF w

/-- The word of two bytes, the first at the lower address: big-endian (R76). -/
def wordOfBytes (hi lo : Byte) : Word := hi ++ lo

/-- Decode from a byte stream: the form and the bytes after it (R100: two bytes, always). -/
def decodeBytes : List Byte → Except Undecodable (Instr × List Byte)
  | hi :: lo :: rest =>
    match decodeWord (wordOfBytes hi lo) with
    | .ok i => .ok (i, rest)
    | .error e => .error e
  | [] | [_] => .error .truncated

/-- The two bytes of a word in the order memory holds them (R76). -/
def bytesOfWord (w : Word) : List Byte := [w.extractLsb' 8 8, w.extractLsb' 0 8]

/-- The sixteen bits a table row's bits stand for: those above `nbits` are 0. -/
def tableWord (nbits w : Nat) : Word := BitVec.ofNat 16 (w % 2 ^ nbits)

/-- What the decoder reads from the instruction whose bits are `w`, numbered as the opcode table numbers them. -/
def decodeTableWord (nbits w : Nat) : Option Instr :=
  match decodeBytes (bytesOfWord (tableWord nbits w)) with
  | .ok (i, _) => some i
  | .error _ => none

/-! ## Encoding -/

/-- The four bits of a register number. -/
def regBits (r : RegIdx) : Nibble := BitVec.ofFin r

/-- `op`, NNN -/
def encNNN (op : Nibble) (nnn : Imm12) : Word := op ++ nnn
/-- `op`, X, NN -/
def encXNN (op : Nibble) (x : RegIdx) (nn : Byte) : Word := op ++ regBits x ++ nn
/-- `op`, X, Y, N -/
def encXYN (op : Nibble) (x y : RegIdx) (n : Nibble) : Word := op ++ regBits x ++ regBits y ++ n

/-- The word of an instruction (the pattern column of R104). -/
def encode : Instr → Word
  | .cls => 0x00E0#16
  | .ret => 0x00EE#16
  | .sys nnn => encNNN 0x0#4 nnn
  | .jp nnn => encNNN 0x1#4 nnn
  | .call nnn => encNNN 0x2#4 nnn
  | .seImm x nn => encXNN 0x3#4 x nn
  | .sneImm x nn => encXNN 0x4#4 x nn
  | .seReg x y => encXYN 0x5#4 x y 0x0#4
  | .ldImm x nn => encXNN 0x6#4 x nn
  | .addImm x nn => encXNN 0x7#4 x nn
  | .ldReg x y => encXYN 0x8#4 x y 0x0#4
  | .orReg x y => encXYN 0x8#4 x y 0x1#4
  | .andReg x y => encXYN 0x8#4 x y 0x2#4
  | .xorReg x y => encXYN 0x8#4 x y 0x3#4
  | .addReg x y => encXYN 0x8#4 x y 0x4#4
  | .subReg x y => encXYN 0x8#4 x y 0x5#4
  | .shr x y => encXYN 0x8#4 x y 0x6#4
  | .subn x y => encXYN 0x8#4 x y 0x7#4
  | .shl x y => encXYN 0x8#4 x y 0xE#4
  | .sneReg x y => encXYN 0x9#4 x y 0x0#4
  | .ldI nnn => encNNN 0xA#4 nnn
  | .jpV0 nnn => encNNN 0xB#4 nnn
  | .rnd x nn => encXNN 0xC#4 x nn
  | .drw x y n => encXYN 0xD#4 x y n
  | .skp x => encXNN 0xE#4 x 0x9E#8
  | .sknp x => encXNN 0xE#4 x 0xA1#8
  | .ldVxDt x => encXNN 0xF#4 x 0x07#8
  | .ldVxK x => encXNN 0xF#4 x 0x0A#8
  | .ldDtVx x => encXNN 0xF#4 x 0x15#8
  | .ldStVx x => encXNN 0xF#4 x 0x18#8
  | .addIVx x => encXNN 0xF#4 x 0x1E#8
  | .ldFVx x => encXNN 0xF#4 x 0x29#8
  | .ldBVx x => encXNN 0xF#4 x 0x33#8
  | .ldMemVx x => encXNN 0xF#4 x 0x55#8
  | .ldVxMem x => encXNN 0xF#4 x 0x65#8

/-- The instruction's two bytes as memory holds them (R76, R100). -/
def encodeBytes (i : Instr) : List Byte := bytesOfWord (encode i)

/-! ## The opcode map as a table (R104)

"`decode(w)` … tests the rows of this table in order and the first matching row wins."  `decodeWord` above does not
use the table; that the two agree is stated and proved apart. -/

/-- One row of the map: a word matches when `(w & mask) = match`, and `form` reads its operands. -/
structure OpcodeRow where
  mask : Word
  pattern : Word
  form : Word → Instr

/-- `(w & mask) = match` (R104). -/
def OpcodeRow.accepts (r : OpcodeRow) (w : Word) : Bool := w &&& r.mask == r.pattern

/-- Rows 1 to 10. -/
def opcodeRowsA : List OpcodeRow :=
  [ ⟨0xFFFF, 0x00E0, fun _ => .cls⟩,
    ⟨0xFFFF, 0x00EE, fun _ => .ret⟩,
    ⟨0xF000, 0x0000, fun w => .sys (nnnField w)⟩,
    ⟨0xF000, 0x1000, fun w => .jp (nnnField w)⟩,
    ⟨0xF000, 0x2000, fun w => .call (nnnField w)⟩,
    ⟨0xF000, 0x3000, fun w => .seImm (xField w) (nnField w)⟩,
    ⟨0xF000, 0x4000, fun w => .sneImm (xField w) (nnField w)⟩,
    ⟨0xF00F, 0x5000, fun w => .seReg (xField w) (yField w)⟩,
    ⟨0xF000, 0x6000, fun w => .ldImm (xField w) (nnField w)⟩,
    ⟨0xF000, 0x7000, fun w => .addImm (xField w) (nnField w)⟩ ]

/-- Rows 11 to 19. -/
def opcodeRowsB : List OpcodeRow :=
  [ ⟨0xF00F, 0x8000, fun w => .ldReg (xField w) (yField w)⟩,
    ⟨0xF00F, 0x8001, fun w => .orReg (xField w) (yField w)⟩,
    ⟨0xF00F, 0x8002, fun w => .andReg (xField w) (yField w)⟩,
    ⟨0xF00F, 0x8003, fun w => .xorReg (xField w) (yField w)⟩,
    ⟨0xF00F, 0x8004, fun w => .addReg (xField w) (yField w)⟩,
    ⟨0xF00F, 0x8005, fun w => .subReg (xField w) (yField w)⟩,
    ⟨0xF00F, 0x8006, fun w => .shr (xField w) (yField w)⟩,
    ⟨0xF00F, 0x8007, fun w => .subn (xField w) (yField w)⟩,
    ⟨0xF00F, 0x800E, fun w => .shl (xField w) (yField w)⟩ ]

/-- Rows 20 to 26. -/
def opcodeRowsC : List OpcodeRow :=
  [ ⟨0xF00F, 0x9000, fun w => .sneReg (xField w) (yField w)⟩,
    ⟨0xF000, 0xA000, fun w => .ldI (nnnField w)⟩,
    ⟨0xF000, 0xB000, fun w => .jpV0 (nnnField w)⟩,
    ⟨0xF000, 0xC000, fun w => .rnd (xField w) (nnField w)⟩,
    ⟨0xF000, 0xD000, fun w => .drw (xField w) (yField w) (nField w)⟩,
    ⟨0xF0FF, 0xE09E, fun w => .skp (xField w)⟩,
    ⟨0xF0FF, 0xE0A1, fun w => .sknp (xField w)⟩ ]

/-- Rows 27 to 35. -/
def opcodeRowsD : List OpcodeRow :=
  [ ⟨0xF0FF, 0xF007, fun w => .ldVxDt (xField w)⟩,
    ⟨0xF0FF, 0xF00A, fun w => .ldVxK (xField w)⟩,
    ⟨0xF0FF, 0xF015, fun w => .ldDtVx (xField w)⟩,
    ⟨0xF0FF, 0xF018, fun w => .ldStVx (xField w)⟩,
    ⟨0xF0FF, 0xF01E, fun w => .addIVx (xField w)⟩,
    ⟨0xF0FF, 0xF029, fun w => .ldFVx (xField w)⟩,
    ⟨0xF0FF, 0xF033, fun w => .ldBVx (xField w)⟩,
    ⟨0xF0FF, 0xF055, fun w => .ldMemVx (xField w)⟩,
    ⟨0xF0FF, 0xF065, fun w => .ldVxMem (xField w)⟩ ]

/-- The 35 rows of R104 in order. -/
def opcodeRows : List OpcodeRow := opcodeRowsA ++ opcodeRowsB ++ opcodeRowsC ++ opcodeRowsD

/-- R104 read off the table: the first matching row's form, or none. -/
def decodeByTable (w : Word) : Option Instr :=
  (opcodeRows.find? (·.accepts w)).map (·.form w)

end Sys2Proof
end

