-- ==== Sys2Proof/Config.lean ====
section
/-! DEFINITION. What is fixed for one machine: the implementation parameters of 00_scope.md R7, the seven quirk
toggles of 10_state.md R40 with their register view `QCFG` (R41), and the values the spec leaves free (R316, R273). -/

namespace Sys2Proof

/-- `MEM_SIZE` (R7): the number of byte addresses. -/
def Config.memSize : Nat := 4096

/-- `LOAD_OFFSET` (R7): where programs are written and where pc starts. -/
def Config.loadOffset : Nat := 0x200

/-- `MAX_ROM` (R7): the longest program that loads. -/
def Config.maxRom : Nat := Config.memSize - Config.loadOffset

/-- `FLAG_REG` (R7): VF. -/
def Config.flagReg : RegIdx := 15

/-- `FONT_BASE` (R7, R75): where the glyphs stand.  Log 7: fixed at the spec's reference value. -/
def Config.fontBase : Nat := 0x000

/-- `GLYPH_BYTES` (R7): bytes per glyph. -/
def Config.glyphBytes : Nat := 5

/-- The number of glyphs (R7). -/
def Config.glyphCount : Nat := 16

/-! ## Free values -/

/-- The byte the oracle gives at its n-th draw (R316: "Every value 0..255 is admitted at every call").  It has no
body, so no proof can learn a value of it (log 3). -/
opaque Config.randomByte : Nat → Byte

/-- Which of the pressed keys the n-th choice of `FX0A` takes (R273: "any member of P (a draw)").  It has no body
(log 4). -/
opaque Config.keyChoice : Nat → Nat

/-! ## The quirk configuration (R40) -/

/-- `shift_src`: what `8XY6` and `8XYE` shift. -/
inductive ShiftSrc where
  /-- the shifted register itself -/
  | vx
  /-- the second named register -/
  | vy
  deriving DecidableEq, Repr

/-- `index_inc`: whether `FX55` and `FX65` move I. -/
inductive IndexInc where
  /-- I stays -/
  | none
  /-- I grows by X + 1 after the accesses -/
  | xPlus1
  deriving DecidableEq, Repr

/-- `jump_reg`: the register `BNNN` adds. -/
inductive JumpReg where
  /-- always V0 -/
  | v0
  /-- the register numbered by the high nibble of the literal -/
  | vx
  deriving DecidableEq, Repr

/-- `draw_edge`: what happens to sprite pixels beyond an edge. -/
inductive DrawEdge where
  /-- they continue on the opposite edge -/
  | wrap
  /-- they are not drawn -/
  | clip
  deriving DecidableEq, Repr

/-- `vf_reset`: whether `8XY1`, `8XY2` and `8XY3` set VF to 0. -/
inductive VfReset where
  /-- VF keeps its value -/
  | off
  /-- VF becomes 0 -/
  | on
  deriving DecidableEq, Repr

/-- `vf_order`: which write stays when the destination is VF. -/
inductive VfOrder where
  /-- the flag is written last -/
  | flagWins
  /-- the result is written last -/
  | resultWins
  deriving DecidableEq, Repr

/-- `mem_edge`: what an address of 4096 or more does. -/
inductive MemEdge where
  /-- it is reduced modulo 4096 -/
  | wrap
  /-- the access raises `MemoryOutOfBounds` -/
  | fault
  deriving DecidableEq, Repr

/-- The quirk configuration: seven toggles, fixed at construction (R40). -/
structure Quirks where
  shiftSrc : ShiftSrc
  indexInc : IndexInc
  jumpReg : JumpReg
  drawEdge : DrawEdge
  vfReset : VfReset
  vfOrder : VfOrder
  memEdge : MemEdge
  deriving DecidableEq, Repr

/-- The reference configuration, under which every toggle has its first value (95_test_vectors.md). -/
def Quirks.reference : Quirks :=
  { shiftSrc := .vx, indexInc := .none, jumpReg := .v0, drawEdge := .wrap, vfReset := .off, vfOrder := .flagWins,
    memEdge := .wrap }

end Sys2Proof
end

