-- ==== Sys2Proof/Machine/State.lean ====
section
/-! DEFINITION. The state of the CORE (10_state.md R30) as plain data, the reasons a step can stop, and the state after
construction (R47). -/

namespace Sys2Proof.Machine

/-- The five errors of 60_exceptions.md R300. -/
inductive ErrorKind where
  /-- the program is longer than 3584 bytes (`load`, R80) -/
  | romTooLarge
  /-- the word matches no form (R105), or is a `SYS` (R140) -/
  | invalidOpcode
  /-- an accessed address is 4096 or more under `mem_edge = FAULT` (R71) -/
  | memoryOutOfBounds
  /-- `CALL` with sixteen live entries (R143) -/
  | stackOverflow
  /-- `RET` with no live entry (R141) -/
  | stackUnderflow
  deriving DecidableEq, Repr

/-- The error record of R301.  Its `code` is the code of R300, which `kind` stands for (`ErrorKind.code`). -/
structure ErrorRecord where
  /-- which error it is -/
  kind : ErrorKind
  /-- `pc_insn`, the address of the instruction that raised; 0x200 for `RomTooLarge` -/
  pc : Word
  /-- the fetched word; none for `RomTooLarge` and for an error of the fetch itself -/
  word : Option Word
  /-- the first out-of-range address, exact and not reduced, for `MemoryOutOfBounds` -/
  addr : Option Nat
  deriving DecidableEq, Repr

/-- `STATUS` (R42): `halted`, and the error record that is meaningful only when `halted = 1`. -/
inductive Status where
  /-- `halted = 0` -/
  | running
  /-- `halted = 1` with its error record -/
  | halted (err : ErrorRecord)
  deriving DecidableEq, Repr

/-- What one `step()` returns to the host (R43). -/
inductive StepResult where
  /-- the instruction executed -/
  | executed
  /-- `FX0A` found no key pressed (R273) -/
  | blocked
  /-- the step raised, or the CORE was halted already (R302, R304) -/
  | err (e : ErrorRecord)
  deriving DecidableEq, Repr

/-- THE MODEL'S OWN (log 5): how far the host has come in the boot order of R352, and what the last `step()`
returned (R43). -/
inductive Progress where
  /-- constructed, nothing loaded, no step yet: `load` is still accepted -/
  | constructed
  /-- `load` was called, no step yet -/
  | loaded
  /-- at least one step ran; the result is that of the last one -/
  | stepped (result : StepResult)
  deriving DecidableEq, Repr

/-- Memory as a sorted list of the cells that differ from what construction put there (R70, R75, R47). -/
abbrev Memory := List Host.Cell

/-- The frame buffer, `fb[c][r]` as R38 indexes it: column first. -/
abbrev FrameBuffer := Vector (Vector Bool 32) 64

/-- The whole state of one CORE (R30). -/
structure State where
  /-- `x[0..15]`, the general registers V0 to VF (R31, R32) -/
  regs : Vector Byte 16
  /-- `I`, the index register (R33) -/
  index : Word
  /-- the program counter (R34) -/
  pc : Word
  /-- `stack[0..15]`, the return-address stack; entries at `SP` and above are stale (R35) -/
  stack : Vector Word 16
  /-- `SP`, the number of live entries, 0 to 16 (R35) -/
  sp : Fin 17
  /-- `DT`, the delay timer (R37) -/
  dt : Byte
  /-- `ST`, the sound timer (R37) -/
  st : Byte
  /-- the frame buffer (R38) -/
  fb : FrameBuffer
  /-- `key[0..15]`, the input snapshot (R39) -/
  keys : Vector Bool 16
  /-- `mem[0..4095]` (R70) -/
  mem : Memory
  /-- `QCFG`, the quirk configuration, fixed at construction (R40, R41) -/
  quirks : Quirks
  /-- `STATUS` (R42) -/
  status : Status
  /-- THE MODEL'S OWN: the boot progress and the last step's result (log 5) -/
  progress : Progress
  /-- THE MODEL'S OWN: how many free values the steps have used so far (logs 3, 4) -/
  draws : Nat
  deriving DecidableEq, Repr

/-- The reasons a step could stop as a fault.  There is none: every error of this CORE has an entry that the spec
describes (R302: it sets `STATUS`), so raising one is a next state (log 1). -/
inductive Fault where
  deriving DecidableEq, Repr

/-- The inputs the model has no move for. -/
inductive Refusal where
  /-- Raised by an arm of `exec` whose instruction has no meaning yet (no arm is, at present).  Safe. -/
  | notModelled (mnemonic : String)
  /-- Raised by the host command `set_key_state` on a key number of 16 or more (R313, D33).  Safe: R362 forbids the
  host to pass one. -/
  | keyIndexOutOfRange (k : Nat)
  /-- Raised by the host command `new` on a configuration with bit 7 set (R41, D33).  Safe: R362 forbids it. -/
  | reservedConfigBit
  /-- Raised by the host command `load` when it is called a second time or after a step (R352, D25).  Safe: R362
  forbids it. -/
  | loadOutOfOrder
  deriving DecidableEq, Repr

/-- What a meaning answers. -/
abbrev Answer := Host.Outcome State Fault Refusal

/-- The state that construction with the configuration `q` leaves (R47, R351).  Memory lists nothing: an unlisted
cell reads as the font and the zeros that construction wrote (`unlistedByte`). -/
def State.construct (q : Quirks) : State :=
  { regs := Vector.replicate 16 0
    index := 0
    pc := BitVec.ofNat 16 Config.loadOffset
    stack := Vector.replicate 16 0
    sp := 0
    dt := 0
    st := 0
    fb := Vector.replicate 64 (Vector.replicate 32 false)
    keys := Vector.replicate 16 false
    mem := []
    quirks := q
    status := .running
    progress := .constructed
    draws := 0 }

/-- The machine right after construction with the reference configuration (R47).  The spec gives no default
configuration: the choice is log 2. -/
def State.reset : State := State.construct Quirks.reference

end Sys2Proof.Machine
end

