-- ==== Sys2Proof/Machine/Memory.lean ====
section
/-! DEFINITION. The memory array (20_memory.md R70 to R79): what construction put into it, reading and writing one
cell in the canonical form, and how an address is resolved to a cell under the `mem_edge` quirk. -/

namespace Sys2Proof.Machine

/-! ## What construction leaves in memory (R75, R351) -/

/-- The five bytes of the glyph for a hexadecimal digit, top row first (R75). -/
def glyphRows : Nat → List Byte
  | 0x0 => [0xF0, 0x90, 0x90, 0x90, 0xF0]
  | 0x1 => [0x20, 0x60, 0x20, 0x20, 0x70]
  | 0x2 => [0xF0, 0x10, 0xF0, 0x80, 0xF0]
  | 0x3 => [0xF0, 0x10, 0xF0, 0x10, 0xF0]
  | 0x4 => [0x90, 0x90, 0xF0, 0x10, 0x10]
  | 0x5 => [0xF0, 0x80, 0xF0, 0x10, 0xF0]
  | 0x6 => [0xF0, 0x80, 0xF0, 0x90, 0xF0]
  | 0x7 => [0xF0, 0x10, 0x20, 0x40, 0x40]
  | 0x8 => [0xF0, 0x90, 0xF0, 0x90, 0xF0]
  | 0x9 => [0xF0, 0x90, 0xF0, 0x10, 0xF0]
  | 0xA => [0xF0, 0x90, 0xF0, 0x90, 0x90]
  | 0xB => [0xE0, 0x90, 0xE0, 0x90, 0xE0]
  | 0xC => [0xF0, 0x80, 0x80, 0x80, 0xF0]
  | 0xD => [0xE0, 0x90, 0x90, 0x90, 0xE0]
  | 0xE => [0xF0, 0x80, 0xF0, 0x80, 0xF0]
  | 0xF => [0xF0, 0x80, 0xF0, 0x80, 0x80]
  | _ => []

/-- What a cell holds after construction: a font byte in the font region, else 0 (R74, R75, R47).  It is what an
unlisted address reads as (log 8). -/
def unlistedByte (a : Nat) : Byte :=
  if Config.fontBase ≤ a ∧ a < Config.fontBase + Config.glyphBytes * Config.glyphCount then
    (glyphRows ((a - Config.fontBase) / Config.glyphBytes)).getD ((a - Config.fontBase) % Config.glyphBytes) 0
  else 0

/-! ## One cell -/

/-- The byte of the cell `a` (R72). -/
def Memory.read : Memory → Nat → Byte
  | [], a => unlistedByte a
  | (k, b) :: m, a => if a = k then b else Memory.read m a

/-- The memory without an entry for the cell `a`. -/
def Memory.erase (m : Memory) (a : Nat) : Memory := m.filter fun e => e.1 != a

/-- The memory with an entry `(a, v)` before the first entry of a higher address. -/
def Memory.insert : Memory → Nat → Byte → Memory
  | [], a, v => [(a, v)]
  | (k, b) :: m, a, v => if a < k then (a, v) :: (k, b) :: m else (k, b) :: Memory.insert m a v

/-- Set the cell `a` to `v` (R73), keeping the canonical form: no entry where `v` is what an unlisted address reads
as. -/
def Memory.write (m : Memory) (a : Nat) (v : Byte) : Memory :=
  if v = unlistedByte a then Memory.erase m a else Memory.insert (Memory.erase m a) a v

/-- Set the cells `a`, `a + 1`, … to the bytes of a list (the loader's loop of R80). -/
def Memory.writeRange : Memory → Nat → List Byte → Memory
  | m, _, [] => m
  | m, a, v :: vs => Memory.writeRange (Memory.write m a v) (a + 1) vs

/-- Every listed address is at least `lo` and below 4096, they strictly rise, and no entry equals what an unlisted
address reads as. -/
def Memory.wfFrom (lo : Nat) : Memory → Bool
  | [] => true
  | (a, v) :: m => decide (lo ≤ a) && decide (a < Config.memSize) && v != unlistedByte a && Memory.wfFrom (a + 1) m

/-- The canonical form of memory: equal memories are equal lists. -/
def Memory.wf (m : Memory) : Bool := Memory.wfFrom 0 m

/-! ## Address resolution (R71) -/

/-- `resolve(a)`: the cell an address means, or the out-of-range address itself where the access raises. -/
def resolve (edge : MemEdge) (a : Nat) : Except Nat Nat :=
  match edge with
  | .wrap => .ok (a % Config.memSize)
  | .fault => if Config.memSize ≤ a then .error a else .ok a

/-- `MemRead(a, 1)` on a memory (R72). -/
def Memory.readAt (edge : MemEdge) (m : Memory) (a : Nat) : Except Nat Byte :=
  match resolve edge a with
  | .ok c => .ok (Memory.read m c)
  | .error bad => .error bad

/-- `MemWrite(a, 1, v)` on a memory (R73). -/
def Memory.writeAt (edge : MemEdge) (m : Memory) (a : Nat) (v : Byte) : Except Nat Memory :=
  match resolve edge a with
  | .ok c => .ok (Memory.write m c v)
  | .error bad => .error bad

/-- Read `n` bytes from `a` in ascending order; the first failing address ends it (R77, R86). -/
def Memory.readBytes (edge : MemEdge) (m : Memory) : Nat → Nat → Except Nat (List Byte)
  | _, 0 => .ok []
  | a, n + 1 =>
    match Memory.readAt edge m a with
    | .error bad => .error bad
    | .ok b =>
      match Memory.readBytes edge m (a + 1) n with
      | .error bad => .error bad
      | .ok bs => .ok (b :: bs)

/-- Write bytes from `a` on in ascending order; the first failing address ends it (R77, R86). -/
def Memory.writeBytes (edge : MemEdge) : Memory → Nat → List Byte → Except Nat Memory
  | m, _, [] => .ok m
  | m, a, v :: vs =>
    match Memory.writeAt edge m a v with
    | .error bad => .error bad
    | .ok m' => Memory.writeBytes edge m' (a + 1) vs

end Sys2Proof.Machine
end

