-- ==== Sys2Proof/Machine/Ops.lean ====
section
/-! DEFINITION. The named operations over the state: registers, pc, the return-address stack, memory through the
instruction's eyes, fetch and decode, and the four ways a step ends (30_encoding.md R110).

Every operation takes the state BEFORE the step, `S0` of R110, whose pc is `pc_insn`; `advance` gives the pc that an
instruction sees while it executes (R112).  So blocking and raising answer `S0` itself, and nothing is to be undone. -/

namespace Sys2Proof.Machine

/-! ## Registers -/

/-- `x[r]` (R10, R31). -/
def State.getReg (s : State) (r : RegIdx) : Byte := s.regs[r]

/-- `x[r] <- v` (R10, R31: none is hardwired). -/
def State.setReg (s : State) (r : RegIdx) (v : Byte) : State := { s with regs := s.regs.set r v }

/-- `x[k] <- b_0`, `x[k+1] <- b_1`, … for the bytes of a list (the loop of R215). -/
def State.setRegsFrom : State → Nat → List Byte → State
  | s, _, [] => s
  | s, k, b :: bs => if h : k < 16 then State.setRegsFrom (s.setReg ⟨k, h⟩ b) (k + 1) bs else s

/-- V0 to Vx, in order (R214). -/
def State.regsUpTo (s : State) (x : RegIdx) : List Byte := s.regs.toList.take (x.val + 1)

/-- `I <- v` -/
def State.setIndex (s : State) (v : Word) : State := { s with index := v }

/-- `pc <- v` -/
def State.setPc (s : State) (v : Word) : State := { s with pc := v }

/-- The pc of the fetch: `(pc_insn + 2) mod 2^16` (R108, R112). -/
def State.advance (s : State) : State := s.setPc (s.pc + 2)

/-- A taken or untaken skip of an advanced state: `pc <- (pc + 2) mod 2^16` where the condition holds (R149). -/
def State.skipIf (s : State) (c : Bool) : State := if c then s.setPc (s.pc + 2) else s

/-- `DT <- v` -/
def State.setDelay (s : State) (v : Byte) : State := { s with dt := v }

/-- `ST <- v` -/
def State.setSound (s : State) (v : Byte) : State := { s with st := v }

/-- Replace the frame buffer. -/
def State.setScreen (s : State) (f : FrameBuffer) : State := { s with fb := f }

/-- Replace the memory. -/
def State.setMem (s : State) (m : Memory) : State := { s with mem := m }

/-- One free value is used up (logs 3, 4). -/
def State.countDraw (s : State) : State := { s with draws := s.draws + 1 }

/-- `STATUS` changes. -/
def State.setStatus (s : State) (t : Status) : State := { s with status := t }

/-- What the host knows changes (log 5). -/
def State.setProgress (s : State) (p : Progress) : State := { s with progress := p }

/-! ## The return-address stack (R36) -/

/-- `push(v)`: none with sixteen live entries. -/
def State.push (s : State) (v : Word) : Option State :=
  if h : s.sp.val < 16 then
    some { s with stack := s.stack.set s.sp.val v h, sp := ⟨s.sp.val + 1, by omega⟩ }
  else none

/-- `pop()`: the newest live entry and the state without it; the entry itself stays in `stack`, stale (R35).  None
with no live entry. -/
def State.pop (s : State) : Option (Word × State) :=
  if h : 0 < s.sp.val then
    some (s.stack[s.sp.val - 1], { s with sp := ⟨s.sp.val - 1, by omega⟩ })
  else none

/-! ## Memory through the state -/

/-- `MemRead(a, 1)` (R72). -/
def State.memRead (s : State) (a : Nat) : Except Nat Byte := Memory.readAt s.quirks.memEdge s.mem a

/-- `n` byte reads from `a` (R77). -/
def State.memReadBytes (s : State) (a n : Nat) : Except Nat (List Byte) :=
  Memory.readBytes s.quirks.memEdge s.mem a n

/-- Byte writes from `a` on (R77); the result is the memory to commit, none of it when a byte is out of range. -/
def State.memWriteBytes (s : State) (a : Nat) (vs : List Byte) : Except Nat Memory :=
  Memory.writeBytes s.quirks.memEdge s.mem a vs

/-! ## How a step ends (R110, R302) -/

/-- `Executed`: every pending write is committed. -/
def commit (s : State) : Answer := .next (s.setProgress (.stepped .executed))

/-- `Blocked`: `state <- S0` (R110, R273). -/
def block (s0 : State) : Answer := .next (s0.setProgress (.stepped .blocked))

/-- TAKING AN ERROR, the CORE's one exception mechanism (R302, R303): `state <- S0`, then `STATUS.halted <- 1` and
`STATUS.err <- e`; no handler runs and control moves to no vector.  There is no return from it (R304, R307). -/
def raise (e : ErrorRecord) (s0 : State) : Answer :=
  .next ((s0.setStatus (.halted e)).setProgress (.stepped (.err e)))

/-- A step of a halted CORE returns the recorded error and changes nothing (R304). -/
def reportHalt (e : ErrorRecord) (s0 : State) : Answer := .next (s0.setProgress (.stepped (.err e)))

/-- The numeric code of an error (R300). -/
def ErrorKind.code : ErrorKind → Nat
  | .romTooLarge => 1
  | .invalidOpcode => 2
  | .memoryOutOfBounds => 3
  | .stackOverflow => 4
  | .stackUnderflow => 5

/-- The record of an error an executing instruction raises: its own address and word (R301, R112).  The word is that
of the instruction, which decoding it gave (log 11). -/
def insnError (kind : ErrorKind) (i : Instr) (addr : Option Nat) (s0 : State) : ErrorRecord :=
  { kind := kind, pc := s0.pc, word := some (encode i), addr := addr }

/-- The instruction `i` raises an error. -/
def raiseInsn (kind : ErrorKind) (i : Instr) (addr : Option Nat) (s0 : State) : Answer :=
  raise (insnError kind i addr s0) s0

/-- The instruction `i` accessed the out-of-range address `bad` (R71, R300). -/
def raiseOutOfBounds (i : Instr) (bad : Nat) (s0 : State) : Answer :=
  raiseInsn .memoryOutOfBounds i (some bad) s0

/-! ## Fetch and decode (R108, R109, R305) -/

/-- The word at pc: byte `pc` in bits 15:8, byte `pc + 1` in bits 7:0, each resolved on its own (R108, R76), or the
first out-of-range address. -/
def State.fetchWord (s : State) : Except Nat Word :=
  match s.memRead s.pc.toNat with
  | .error bad => .error bad
  | .ok hi =>
    match s.memRead (s.pc.toNat + 1) with
    | .error bad => .error bad
    | .ok lo => .ok (wordOfBytes hi lo)

/-- Fetch, then decode: the instruction to execute, or the record of the first error met (R305, R301). -/
def State.fetchDecode (s : State) : Except ErrorRecord Instr :=
  match s.fetchWord with
  | .error bad => .error { kind := .memoryOutOfBounds, pc := s.pc, word := none, addr := some bad }
  | .ok w =>
    match decodeWord w with
    | .error _ => .error { kind := .invalidOpcode, pc := s.pc, word := some w, addr := none }
    | .ok i => .ok i

/-- The recorded error of a halted CORE. -/
def Status.err? : Status → Option ErrorRecord
  | .running => none
  | .halted e => some e

/-- A running CORE with the word `w` where it fetches next: at pc, or, where pc cannot be fetched from, at the load
offset with pc there (log 10). -/
def State.placeWord (s : State) (w : Word) : State :=
  match s.memWriteBytes s.pc.toNat (bytesOfWord w) with
  | .ok m => (s.setMem m).setStatus .running
  | .error _ =>
    ((s.setPc (BitVec.ofNat 16 Config.loadOffset)).setMem
      (Memory.writeRange s.mem Config.loadOffset (bytesOfWord w))).setStatus .running

end Sys2Proof.Machine
end

