-- ==== Sys2Proof/Machine/Operands.lean ====
section
/-! DEFINITION. The operand forms that are more than a register or a literal: the quirk-selected registers, effective
addresses, digits, glyph addresses, keys, and where a sprite pixel lands. -/

namespace Sys2Proof.Machine

/-- The source of a shift: the shifted register itself, or Vy (R179, R181 `s`). -/
def State.shiftSource (s : State) (x y : RegIdx) : Byte :=
  match s.quirks.shiftSrc with
  | .vx => s.getReg x
  | .vy => s.getReg y

/-- The register `BNNN` adds: V0, or the one numbered by "the high nibble of the literal" `NNN[11:8]` (R148 `r`). -/
def jumpRegister (q : Quirks) (nnn : Imm12) : RegIdx :=
  match q.jumpReg with
  | .v0 => 0
  | .vx => (nnn.extractLsb' 8 4).toFin

/-- The effective address of the first byte an instruction accesses through I; the k-th is `k` more (R216). -/
def State.base (s : State) : Nat := s.index.toNat

/-- I after a register transfer: `(I + X + 1) mod 2^16`, or I as it was (R214, R215, `index_inc`). -/
def State.indexAfter (s : State) (x : RegIdx) : Word :=
  match s.quirks.indexInc with
  | .none => s.index
  | .xPlus1 => s.index + BitVec.ofNat 16 (x.val + 1)

/-- Hundreds, tens and ones of a byte (R213). -/
def bcdDigits (v : Byte) : List Byte :=
  [BitVec.ofNat 8 (v.toNat / 100), BitVec.ofNat 8 (v.toNat / 10 % 10), BitVec.ofNat 8 (v.toNat % 10)]

/-- `FONT_BASE + GLYPH_BYTES * (v & 0xF)` (R212). -/
def glyphAddress (v : Byte) : Word :=
  BitVec.ofNat 16 (Config.fontBase + Config.glyphBytes * (v &&& 0x0F#8).toNat)

/-- `key_pressed(v)`: a value of 16 or more names no key and tests as not pressed (R270). -/
def State.keyPressed (s : State) (v : Byte) : Bool :=
  if h : v.toNat < 16 then s.keys[v.toNat] else false

/-- `P` of R273: the pressed keys, in rising order. -/
def State.pressedKeys (s : State) : List KeyIdx := (List.finRange 16).filter fun k => s.keys[k]

/-- `choose(P)` of R273 for the non-empty `k :: ks`: some member, which one is the n-th free choice (log 4). -/
def chooseKey (n : Nat) (k : KeyIdx) (ks : List KeyIdx) : KeyIdx :=
  (k :: ks).getD (Config.keyChoice n % (ks.length + 1)) k

/-- A register's value that holds a key number. -/
def keyByte (k : KeyIdx) : Byte := BitVec.ofNat 8 k.val

/-- `place(px, py)`: the cell of a sprite pixel, none when it is clipped (R242). -/
def place (edge : DrawEdge) (px py : Nat) : Option (Column × Row) :=
  match edge with
  | .wrap => some (Fin.ofNat 64 px, Fin.ofNat 32 py)
  | .clip => if h : px < 64 ∧ py < 32 then some (⟨px, h.1⟩, ⟨py, h.2⟩) else none

/-- The cells one sprite row lights: bit 7 is column offset 0, the leftmost pixel (R241, R242). -/
def rowCells (edge : DrawEdge) (cx y : Nat) (b : Byte) : List (Column × Row) :=
  [0, 1, 2, 3, 4, 5, 6, 7].filterMap fun c => if b.getLsbD (7 - c) then place edge (cx + c) y else none

/-- The cells a whole sprite lights, top row first: row r of the sprite is at `cy + r` (R241, R242). -/
def spriteCells (edge : DrawEdge) (cx : Nat) : Nat → List Byte → List (Column × Row)
  | _, [] => []
  | cy, b :: bs => rowCells edge cx cy b ++ spriteCells edge cx (cy + 1) bs

end Sys2Proof.Machine
end

