-- ==== Sys2Proof/Machine/Flags.lean ====
section
/-! DEFINITION. VF as a flag (10_state.md R32): every value it is given, and how a result and a flag are written
together (41_registers_alu.md R170). -/

namespace Sys2Proof.Machine

/-- A flag's byte: exactly 1 or 0. -/
def flagByte (b : Bool) : Byte := if b then 1 else 0

/-- Carry out of bit 7: the exact sum exceeds 255 (R177, R183). -/
def carry (a b : Byte) : Byte := flagByte (decide (255 < a.toNat + b.toNat))

/-- NOT borrow of `a - b`: the minuend is at least the subtrahend (R178, R180, R183). -/
def noBorrow (a b : Byte) : Byte := flagByte (decide (b.toNat ≤ a.toNat))

/-- The bit a right shift moves out, bit 0 (R179). -/
def shrOut (v : Byte) : Byte := flagByte (v.getLsbD 0)

/-- The bit a left shift moves out, bit 7 (R181). -/
def shlOut (v : Byte) : Byte := flagByte (v.getLsbD 7)

/-- `write_result_and_flag(X, result, flag)`: `vf_order` decides which write comes last (R170). -/
def State.writeResultAndFlag (s : State) (x : RegIdx) (result flag : Byte) : State :=
  match s.quirks.vfOrder with
  | .flagWins => (s.setReg x result).setReg Config.flagReg flag
  | .resultWins => (s.setReg Config.flagReg flag).setReg x result

/-- The writes of `8XY1`, `8XY2` and `8XY3`: the result, and VF <- 0 when `vf_reset` is on (R174 to R176). -/
def State.writeLogical (s : State) (x : RegIdx) (result : Byte) : State :=
  match s.quirks.vfReset with
  | .on => s.writeResultAndFlag x result 0
  | .off => s.setReg x result

/-! ## Drawing and collision (R241) -/

/-- The bit of one frame-buffer cell. -/
def pixel (f : FrameBuffer) (p : Column × Row) : Bool := (f[p.1])[p.2]

/-- `fb[c][r] <- b` -/
def setPixel (f : FrameBuffer) (p : Column × Row) (b : Bool) : FrameBuffer := f.set p.1 ((f[p.1]).set p.2 b)

/-- XOR the cells of a list onto a frame buffer, in order; the flag says whether one of them was on (R241). -/
def xorCells : FrameBuffer → Bool → List (Column × Row) → FrameBuffer × Bool
  | f, hit, [] => (f, hit)
  | f, hit, p :: ps => xorCells (setPixel f p (!pixel f p)) (hit || pixel f p) ps

/-- Every cell off (R240). -/
def blankScreen : FrameBuffer := Vector.replicate 64 (Vector.replicate 32 false)

end Sys2Proof.Machine
end

