-- ==== Sys2Proof/Machine/Alu.lean ====
section
/-! DEFINITION. Registers and arithmetic (41_registers_alu.md R171 to R183).  Every operand is read from the state
before any write (R110, R371). -/

namespace Sys2Proof.Machine

/-- `LD Vx, NN`: `x[X] <- NN` (R171). -/
def execLdImm (x : RegIdx) (nn : Byte) (s : State) : Answer := commit (s.advance.setReg x nn)

/-- `ADD Vx, NN`: `x[X] <- (x[X] + NN) mod 256`, no flag (R172). -/
def execAddImm (x : RegIdx) (nn : Byte) (s : State) : Answer := commit (s.advance.setReg x (s.getReg x + nn))

/-- `LD Vx, Vy`: `x[X] <- x[Y]` (R173). -/
def execLdReg (x y : RegIdx) (s : State) : Answer := commit (s.advance.setReg x (s.getReg y))

/-- `OR Vx, Vy` (R174). -/
def execOrReg (x y : RegIdx) (s : State) : Answer :=
  commit (s.advance.writeLogical x (s.getReg x ||| s.getReg y))

/-- `AND Vx, Vy` (R175). -/
def execAndReg (x y : RegIdx) (s : State) : Answer :=
  commit (s.advance.writeLogical x (s.getReg x &&& s.getReg y))

/-- `XOR Vx, Vy` (R176). -/
def execXorReg (x y : RegIdx) (s : State) : Answer :=
  commit (s.advance.writeLogical x (s.getReg x ^^^ s.getReg y))

/-- `ADD Vx, Vy`: the sum modulo 256, VF <- carry (R177). -/
def execAddReg (x y : RegIdx) (s : State) : Answer :=
  commit (s.advance.writeResultAndFlag x (s.getReg x + s.getReg y) (carry (s.getReg x) (s.getReg y)))

/-- `SUB Vx, Vy`: `x[X] - x[Y]` modulo 256, VF <- NOT borrow (R178). -/
def execSubReg (x y : RegIdx) (s : State) : Answer :=
  commit (s.advance.writeResultAndFlag x (s.getReg x - s.getReg y) (noBorrow (s.getReg x) (s.getReg y)))

/-- `SHR Vx {, Vy}`: the source shifted right by one, VF <- its bit 0 (R179). -/
def execShr (x y : RegIdx) (s : State) : Answer :=
  commit (s.advance.writeResultAndFlag x (s.shiftSource x y >>> 1) (shrOut (s.shiftSource x y)))

/-- `SUBN Vx, Vy`: `x[Y] - x[X]` modulo 256, VF <- NOT borrow (R180). -/
def execSubn (x y : RegIdx) (s : State) : Answer :=
  commit (s.advance.writeResultAndFlag x (s.getReg y - s.getReg x) (noBorrow (s.getReg y) (s.getReg x)))

/-- `SHL Vx {, Vy}`: the source shifted left by one, VF <- its bit 7 (R181). -/
def execShl (x y : RegIdx) (s : State) : Answer :=
  commit (s.advance.writeResultAndFlag x (s.shiftSource x y <<< 1) (shlOut (s.shiftSource x y)))

/-- `RND Vx, NN`: `x[X] <- draw_random8() & NN`; the draw is a free value (R182, R316, log 3). -/
def execRnd (x : RegIdx) (nn : Byte) (s : State) : Answer :=
  commit ((s.advance.setReg x (Config.randomByte s.draws &&& nn)).countDraw)

end Sys2Proof.Machine
end

