-- ==== Sys2Proof/Machine/Control.lean ====
section
/-! DEFINITION. Control flow (40_control_flow.md R140 to R149). -/

namespace Sys2Proof.Machine

/-- `SYS NNN`: `raise InvalidOpcode` always (R140). -/
def execSys (nnn : Imm12) (s : State) : Answer := raiseInsn .invalidOpcode (.sys nnn) none s

/-- `RET`: `pc <- pop()` (R141). -/
def execRet (s : State) : Answer :=
  match s.advance.pop with
  | some (target, s') => commit (s'.setPc target)
  | none => raiseInsn .stackUnderflow .ret none s

/-- `JP NNN`: `pc <- NNN` (R142). -/
def execJp (nnn : Imm12) (s : State) : Answer := commit (s.advance.setPc (zext16 nnn))

/-- `CALL NNN`: `push(pc)`, the return address `pc_insn + 2`, then `pc <- NNN` (R143). -/
def execCall (nnn : Imm12) (s : State) : Answer :=
  match s.advance.push s.advance.pc with
  | some s' => commit (s'.setPc (zext16 nnn))
  | none => raiseInsn .stackOverflow (.call nnn) none s

/-- `SE Vx, NN`: skip if `x[X] = NN` (R144). -/
def execSeImm (x : RegIdx) (nn : Byte) (s : State) : Answer :=
  commit (s.advance.skipIf (s.getReg x == nn))

/-- `SNE Vx, NN`: skip if `x[X] != NN` (R145). -/
def execSneImm (x : RegIdx) (nn : Byte) (s : State) : Answer :=
  commit (s.advance.skipIf (s.getReg x != nn))

/-- `SE Vx, Vy`: skip if `x[X] = x[Y]` (R146). -/
def execSeReg (x y : RegIdx) (s : State) : Answer :=
  commit (s.advance.skipIf (s.getReg x == s.getReg y))

/-- `SNE Vx, Vy`: skip if `x[X] != x[Y]` (R147). -/
def execSneReg (x y : RegIdx) (s : State) : Answer :=
  commit (s.advance.skipIf (s.getReg x != s.getReg y))

/-- `JP V0, NNN`: `pc <- (NNN + x[r]) mod 2^16` with r chosen by `jump_reg` (R148). -/
def execJpV0 (nnn : Imm12) (s : State) : Answer :=
  commit (s.advance.setPc (zext16 nnn + (s.getReg (jumpRegister s.quirks nnn)).setWidth 16))

end Sys2Proof.Machine
end

