-- ==== Sys2Proof/Machine/Display.lean ====
section
/-! DEFINITION. The frame-buffer unit (43_display.md R240 to R243). -/

namespace Sys2Proof.Machine

/-- `CLS`: every cell off, VF not written (R240). -/
def execCls (s : State) : Answer := commit (s.advance.setScreen blankScreen)

/-- `DRW Vx, Vy, N`: every sprite row is read first, then its lit cells are XORed onto the frame buffer, and VF says
whether one of them was on (R241). -/
def execDrw (x y : RegIdx) (n : Nibble) (s : State) : Answer :=
  match s.memReadBytes s.base n.toNat with
  | .ok rows =>
    let drawn := xorCells s.fb false
      (spriteCells s.quirks.drawEdge (s.getReg x).toNat (s.getReg y).toNat rows)
    commit ((s.advance.setScreen drawn.1).setReg Config.flagReg (flagByte drawn.2))
  | .error bad => raiseOutOfBounds (.drw x y n) bad s

end Sys2Proof.Machine
end

