-- ==== Sys2Proof/Machine/IndexMemory.lean ====
section
/-! DEFINITION. The index register and memory transfers (42_index_memory.md R210 to R216). -/

namespace Sys2Proof.Machine

/-- `LD I, NNN`: `I <- zext_16(NNN)` (R210). -/
def execLdI (nnn : Imm12) (s : State) : Answer := commit (s.advance.setIndex (zext16 nnn))

/-- `ADD I, Vx`: `I <- (I + x[X]) mod 2^16`, VF not written (R211). -/
def execAddIVx (x : RegIdx) (s : State) : Answer :=
  commit (s.advance.setIndex (s.index + (s.getReg x).setWidth 16))

/-- `LD F, Vx`: I points at the glyph of the low nibble of Vx (R212). -/
def execLdFVx (x : RegIdx) (s : State) : Answer := commit (s.advance.setIndex (glyphAddress (s.getReg x)))

/-- `LD B, Vx`: hundreds, tens and ones at `I`, `I + 1`, `I + 2` (R213). -/
def execLdBVx (x : RegIdx) (s : State) : Answer :=
  match s.memWriteBytes s.base (bcdDigits (s.getReg x)) with
  | .ok m => commit (s.advance.setMem m)
  | .error bad => raiseOutOfBounds (.ldBVx x) bad s

/-- `LD [I], Vx`: store V0 to Vx at I on, then move I as `index_inc` says (R214). -/
def execLdMemVx (x : RegIdx) (s : State) : Answer :=
  match s.memWriteBytes s.base (s.regsUpTo x) with
  | .ok m => commit ((s.advance.setMem m).setIndex (s.indexAfter x))
  | .error bad => raiseOutOfBounds (.ldMemVx x) bad s

/-- `LD Vx, [I]`: load V0 to Vx from I on, then move I as `index_inc` says (R215). -/
def execLdVxMem (x : RegIdx) (s : State) : Answer :=
  match s.memReadBytes s.base (x.val + 1) with
  | .ok bs => commit ((s.advance.setRegsFrom 0 bs).setIndex (s.indexAfter x))
  | .error bad => raiseOutOfBounds (.ldVxMem x) bad s

end Sys2Proof.Machine
end

