-- ==== Sys2Proof/Machine/KeyTimer.lean ====
section
/-! DEFINITION. Keypad and timer instructions (44_keypad_timers.md R270 to R277). -/

namespace Sys2Proof.Machine

/-- `SKP Vx`: skip if the key in Vx is pressed (R271). -/
def execSkp (x : RegIdx) (s : State) : Answer := commit (s.advance.skipIf (s.keyPressed (s.getReg x)))

/-- `SKNP Vx`: skip if the key in Vx is not pressed (R272). -/
def execSknp (x : RegIdx) (s : State) : Answer := commit (s.advance.skipIf (!s.keyPressed (s.getReg x)))

/-- `LD Vx, K`: block while no key is pressed, else store one of the pressed keys, a free choice (R273, log 4). -/
def execLdVxK (x : RegIdx) (s : State) : Answer :=
  match s.pressedKeys with
  | [] => block s
  | k :: ks => commit ((s.advance.setReg x (keyByte (chooseKey s.draws k ks))).countDraw)

/-- `LD Vx, DT`: `x[X] <- DT` (R274). -/
def execLdVxDt (x : RegIdx) (s : State) : Answer := commit (s.advance.setReg x s.dt)

/-- `LD DT, Vx`: `DT <- x[X]` (R275). -/
def execLdDtVx (x : RegIdx) (s : State) : Answer := commit (s.advance.setDelay (s.getReg x))

/-- `LD ST, Vx`: `ST <- x[X]` (R276). -/
def execLdStVx (x : RegIdx) (s : State) : Answer := commit (s.advance.setSound (s.getReg x))

end Sys2Proof.Machine
end

