-- ==== Sys2Proof/Machine/Step.lean ====
section
/-! DEFINITION. `step()` (30_encoding.md R110) and the placing of one instruction for it to fetch. -/

namespace Sys2Proof.Machine

/-- `step()`: a halted CORE reports its error; else fetch, decode and execute, the first error met ending the step
(R110, R304, R305). -/
def step (s : State) : Host.Outcome State Fault Refusal :=
  match s.status.err? with
  | some e => reportHalt e s
  | none =>
    match s.fetchDecode with
    | .error e => raise e s
    | .ok i => exec i s

/-- `s` with the instruction whose bits are `w` where `step` fetches next, and running (log 10). -/
def State.withFetchWord (s : State) (nbits w : Nat) : State := s.placeWord (tableWord nbits w)

end Sys2Proof.Machine
end

