-- ==== Sys2Proof/Machine/Commands.lean ====
section
/-! DEFINITION. The host's commands (70_reset_and_hazards.md R360): construction, load, timer tick, key input and the
observations.  Each is one atomic transaction (R361), so each is a function of the state between commands. -/

namespace Sys2Proof.Machine

/-! ## `new` (R350) and the register view of the configuration (R41) -/

/-- `QCFG` as one byte (R41). -/
def qcfgOfQuirks (q : Quirks) : Byte :=
  BitVec.ofNat 8
    ((match q.shiftSrc with | .vx => 0 | .vy => 1) + 2 * (match q.indexInc with | .none => 0 | .xPlus1 => 1)
      + 4 * (match q.jumpReg with | .v0 => 0 | .vx => 1) + 8 * (match q.drawEdge with | .wrap => 0 | .clip => 1)
      + 16 * (match q.vfReset with | .off => 0 | .on => 1) + 32 * (match q.vfOrder with | .flagWins => 0 | .resultWins => 1)
      + 64 * (match q.memEdge with | .wrap => 0 | .fault => 1))

/-- The configuration a `QCFG` byte names; none when the reserved bit 7 is set (R41, D33). -/
def quirksOfQcfg (b : Byte) : Option Quirks :=
  if b.getLsbD 7 then none
  else some
    { shiftSrc := if b.getLsbD 0 then .vy else .vx
      indexInc := if b.getLsbD 1 then .xPlus1 else .none
      jumpReg := if b.getLsbD 2 then .vx else .v0
      drawEdge := if b.getLsbD 3 then .clip else .wrap
      vfReset := if b.getLsbD 4 then .on else .off
      vfOrder := if b.getLsbD 5 then .resultWins else .flagWins
      memEdge := if b.getLsbD 6 then .fault else .wrap }

/-- `new(Q)` on a `QCFG` byte (R350). -/
def newCore (qcfg : Byte) : Answer :=
  match quirksOfQcfg qcfg with
  | some q => .next (State.construct q)
  | none => .refused .reservedConfigBit

/-! ## `load` (R80) -/

/-- The record of a program that is too long (R80, R301). -/
def romTooLarge : ErrorRecord :=
  { kind := .romTooLarge, pc := BitVec.ofNat 16 Config.loadOffset, word := none, addr := none }

/-- `load(bytes)`: accepted once, before the first step (R352); too long a program halts the CORE and writes no byte
(R80). -/
def load (bytes : List Byte) (s : State) : Answer :=
  match s.progress with
  | .constructed =>
    if Config.maxRom < bytes.length then .next ((s.setStatus (.halted romTooLarge)).setProgress .loaded)
    else .next ((s.setMem (Memory.writeRange s.mem Config.loadOffset bytes)).setProgress .loaded)
  | .loaded | .stepped _ => .refused .loadOutOfOrder

/-! ## `tick_timers` (R310) and `set_key_state` (R313) -/

/-- One timer, one tick: down by one, never below 0 (R310). -/
def tickByte (t : Byte) : Byte := if t = 0 then 0 else t - 1

/-- `tick_timers()`: both timers once, whatever the run state (R310, R304). -/
def tickTimers (s : State) : State := { s with dt := tickByte s.dt, st := tickByte s.st }

/-- `set_key_state(k, pressed)` (R313). -/
def setKeyState (k : Nat) (pressed : Bool) (s : State) : Answer :=
  if h : k < 16 then .next { s with keys := s.keys.set k pressed h } else .refused (.keyIndexOutOfRange k)

/-! ## Observations (R44): they write nothing -/

/-- `frame_buffer()` (R314). -/
def frameBuffer (s : State) : FrameBuffer := s.fb

/-- `sound_active()`: `ST != 0` (R311). -/
def soundActive (s : State) : Bool := s.st != 0

/-- `delay_timer()` (R44). -/
def delayTimer (s : State) : Byte := s.dt

/-! ## A run: the host's commands in any order (R361, R381) -/

/-- The commands that change an existing CORE (R360). -/
inductive Command where
  /-- `load(bytes)` -/
  | load (bytes : List Byte)
  /-- `step()` -/
  | step
  /-- `tick_timers()` -/
  | tickTimers
  /-- `set_key_state(k, pressed)` -/
  | setKeyState (k : Nat) (pressed : Bool)
  deriving DecidableEq, Repr

/-- One command (R361: each is atomic, and they never overlap). -/
def applyCommand (c : Command) (s : State) : Answer :=
  match c with
  | .load bytes => Sys2Proof.Machine.load bytes s
  | .step => Sys2Proof.Machine.step s
  | .tickTimers => .next (Sys2Proof.Machine.tickTimers s)
  | .setKeyState k p => Sys2Proof.Machine.setKeyState k p s

/-- Commands one after another, ending at the first that is refused (R361). -/
def runCommands : List Command → State → Answer
  | [], s => .next s
  | c :: cs, s =>
    match applyCommand c s with
    | .next t => runCommands cs t
    | .fault r => .fault r
    | .refused r => .refused r

end Sys2Proof.Machine
end

