-- ==== Sys2Proof/Safety.lean ====
section
/-! DEFINITION. The terms the statements use: the invariant of a CORE (R30, R42, R301 to R304), what an instruction
leaves as it was, and the spec's sentences about registers and pixels in a form that does not follow the meanings'
own code. -/

namespace Sys2Proof.Machine

/-! ## The invariant -/

/-- An error record has the fields R301 gives its kind: a word unless `load` or the fetch raised, and the exact
out-of-range address for `MemoryOutOfBounds` alone. -/
def ErrorRecord.shaped (e : ErrorRecord) : Prop :=
  match e.kind with
  | .romTooLarge => e.pc = 0x200#16 ∧ e.word = none ∧ e.addr = none
  | .invalidOpcode => e.word.isSome ∧ e.addr = none
  | .memoryOutOfBounds => ∃ a, e.addr = some a ∧ Config.memSize ≤ a
  | .stackOverflow => e.word.isSome ∧ e.addr = none
  | .stackUnderflow => e.word = some 0x00EE#16 ∧ e.addr = none

/-- The condition of R300 under which the error is raised still shows in the halted state, which commits nothing
(R303). -/
def State.showsCause (s : State) : ErrorKind → Prop
  | .romTooLarge => True
  | .invalidOpcode => True
  | .memoryOutOfBounds => s.quirks.memEdge = .fault
  | .stackOverflow => s.sp = 16
  | .stackUnderflow => s.sp = 0

/-- `STATUS` and what the host knows agree: the last step's result is an error exactly when that error halted the
CORE, a halted CORE holds its record and pc is still the address in it (R302, R303, R304). -/
def State.statusOk (s : State) : Prop :=
  match s.status with
  | .running => ∀ e, s.progress ≠ .stepped (.err e)
  | .halted e =>
    e.shaped ∧ e.pc = s.pc ∧ s.showsCause e.kind ∧ (s.progress = .loaded ∨ s.progress = .stepped (.err e))

/-- Before the first step pc is the load offset, and before `load` the CORE runs (R47, R352). -/
def State.bootOk (s : State) : Prop :=
  match s.progress with
  | .constructed => s.pc = 0x200#16 ∧ s.status = .running
  | .loaded => s.pc = 0x200#16
  | .stepped _ => True

/-- The invariant every command keeps: memory in its canonical form inside the 4096 cells, `STATUS` consistent, and
the boot order. -/
structure State.Inv (s : State) : Prop where
  mem_wf : s.mem.wf = true
  status_ok : s.statusOk
  boot_ok : s.bootOk

/-! ## Frames -/

/-- What an instruction may change.  Everything not named here stays. -/
structure Touched where
  /-- the registers it may write -/
  regs : RegIdx → Prop := fun _ => False
  /-- I -/
  index : Prop := False
  /-- SP and the stack entries -/
  stack : Prop := False
  /-- DT -/
  delay : Prop := False
  /-- ST -/
  sound : Prop := False
  /-- the frame buffer -/
  screen : Prop := False
  /-- STATUS: it may raise an error -/
  status : Prop := False
  /-- the free-value counter -/
  draws : Prop := False
  /-- the cells of memory it may store to -/
  cells : Nat → Prop := fun _ => False

/-- `t` differs from `s` only in what `w` names, besides pc and the step's result, which any step may change.  The key
snapshot and the quirk configuration never change. -/
structure Frame (w : Touched) (s t : State) : Prop where
  regs : ∀ r, ¬ w.regs r → t.getReg r = s.getReg r
  index : ¬ w.index → t.index = s.index
  stack : ¬ w.stack → t.stack = s.stack ∧ t.sp = s.sp
  delay : ¬ w.delay → t.dt = s.dt
  sound : ¬ w.sound → t.st = s.st
  screen : ¬ w.screen → t.fb = s.fb
  status : ¬ w.status → t.status = s.status
  draws : ¬ w.draws → t.draws = s.draws
  keys : t.keys = s.keys
  quirks : t.quirks = s.quirks
  mem : ∀ a, ¬ w.cells a → t.mem.read a = s.mem.read a

/-- The cells that `n` byte accesses from I on resolve to, with the meanings' own `resolve` and base address. -/
def State.accessedCells (s : State) (n a : Nat) : Prop :=
  ∃ k, k < n ∧ resolve s.quirks.memEdge (s.base + k) = .ok a

/-! ## The spec's sentences, said apart from the meanings -/

/-- The four bits of a register number, as a word written out from the spec holds them (R101). -/
def nibbleOf (r : RegIdx) : Nibble := BitVec.ofNat 4 r.val

/-- The state a step answers with when it raises `e` (R302, R303): the state before it with `STATUS` set. -/
def State.halted (s : State) (e : ErrorRecord) : State :=
  { s with status := .halted e, progress := .stepped (.err e) }

/-- Every address of `n` accesses from I on exists: all of them under `WRAP`, those below 4096 under `FAULT` (R71). -/
def State.inRange (s : State) (n : Nat) : Prop :=
  s.quirks.memEdge = .wrap ∨ s.index.toNat + n ≤ 4096 ∨ n = 0

/-- The first of the addresses I, I + 1, … that is 4096 or more (R86). -/
def State.firstBad (s : State) : Nat := max s.index.toNat 4096

/-- What the cell `a` holds after the bytes `bs` were stored from I on: the byte stored to it, or, where none was, what
it held before (R71, R73). -/
def State.holdsAfterStore (s : State) (bs : List Byte) (a : Nat) (b : Byte) : Prop :=
  (∀ (k : Nat) (h : k < bs.length), a = (s.index.toNat + k) % 4096 → b = bs[k]) ∧
  ((∀ k, k < bs.length → a ≠ (s.index.toNat + k) % 4096) → b = s.mem.read a)

/-- What register `r` holds after a result for Vx and a flag for VF were both written: where the destination is VF,
the write that `vf_order` puts last (R170). -/
def doubleWrite (s : State) (x : RegIdx) (result flag : Byte) (r : RegIdx) : Byte :=
  if r = 15 ∧ (x = 15 → s.quirks.vfOrder = .flagWins) then flag
  else if r = x then result
  else s.getReg r

/-- The eighty bytes of the font table of R75, digit by digit. -/
def fontBytes : List Byte :=
  [0xF0, 0x90, 0x90, 0x90, 0xF0] ++ [0x20, 0x60, 0x20, 0x20, 0x70] ++ [0xF0, 0x10, 0xF0, 0x80, 0xF0] ++
  [0xF0, 0x10, 0xF0, 0x10, 0xF0] ++ [0x90, 0x90, 0xF0, 0x10, 0x10] ++ [0xF0, 0x80, 0xF0, 0x10, 0xF0] ++
  [0xF0, 0x80, 0xF0, 0x90, 0xF0] ++ [0xF0, 0x10, 0x20, 0x40, 0x40] ++ [0xF0, 0x90, 0xF0, 0x90, 0xF0] ++
  [0xF0, 0x90, 0xF0, 0x10, 0xF0] ++ [0xF0, 0x90, 0xF0, 0x90, 0x90] ++ [0xE0, 0x90, 0xE0, 0x90, 0xE0] ++
  [0xF0, 0x80, 0x80, 0x80, 0xF0] ++ [0xE0, 0x90, 0x90, 0x90, 0xE0] ++ [0xF0, 0x80, 0xF0, 0x80, 0xF0] ++
  [0xF0, 0x80, 0xF0, 0x80, 0x80]

/-- The byte of row `k` of the sprite at I (R241, R242, R71). -/
def State.spriteByte (s : State) (k : Nat) : Byte := s.mem.read ((s.index.toNat + k) % 4096)

/-- A sprite pixel at `(px, py)` lands on the cell `(c, r)`: modulo 64 and 32 under `WRAP`, exactly there under `CLIP`
(R242). -/
def lands (edge : DrawEdge) (px py : Nat) (c : Column) (r : Row) : Prop :=
  match edge with
  | .wrap => px % 64 = c.val ∧ py % 32 = r.val
  | .clip => px = c.val ∧ py = r.val

/-- Some sprite pixel, at column offset `j` of row `k`, is on and lands on the cell `(c, r)` (R241, R242). -/
def State.lights (s : State) (x y : RegIdx) (n : Nibble) (c : Column) (r : Row) : Prop :=
  ∃ k j, k < n.toNat ∧ j < 8 ∧ (s.spriteByte k).getLsbD (7 - j) = true ∧
    lands s.quirks.drawEdge ((s.getReg x).toNat + j) ((s.getReg y).toNat + k) c r

end Sys2Proof.Machine
end

