-- ==== Sys2Proof/Certificates/Slice0/Obligations.lean ====
section
/-! DEFINITION. The statements about the model, one definition each.  They are proved elsewhere.
Each docstring names the rule of spec/ it formalises, or says that it is derived.

Three choices of the model run through all of them: an error is a next state (log 1), a step's result stands in the
field `progress`, which is the model's own (log 5), and `exec` takes the state before the fetch (log 11). -/

open Sys2Proof Sys2Proof.Machine

/-! ## Encoding -/

/-- Derived (R101, R104): no bit of an encoding is lost; decoding a well-formed instruction's word gives it back. -/
def Obligations.DecodeOfEncodeIsTheInstruction : Prop :=
  ∀ i : Instr, i.wellFormed = true → decodeWord (encode i) = .ok i

/-- Derived (R101, R104): a word has one meaning; the instruction a word decodes to is well formed and its word is that
word. -/
def Obligations.EncodeOfDecodeIsTheWord : Prop :=
  ∀ (w : Word) (i : Instr), decodeWord w = .ok i → encode i = w ∧ i.wellFormed = true

/-- R104: decoding gives the form of the first matching row of the table; apart from the rows of `00E0` and `00EE`
before that of `0NNN` no word matches two rows; and a step that fetches a word matching no row raises `InvalidOpcode`.
-/
def Obligations.DecodeIsFirstMatchingRow : Prop :=
  (∀ w : Word, (decodeWord w).toOption = decodeByTable w) ∧
  (∀ (w : Word) (j k : Fin opcodeRows.length), j < k → opcodeRows[j].accepts w = true → opcodeRows[k].accepts w = true →
    j.val < 2 ∧ k.val = 2) ∧
  (∀ (s : State) (w : Word), s.status = .running → s.fetchWord = .ok w → decodeByTable w = none →
    step s = .next (s.halted { kind := .invalidOpcode, pc := s.pc, word := some w, addr := none }))

/-- Derived (R105 without its counts): the words with no form are exactly those of the five spaces. -/
def Obligations.IllegalWordsAreFiveSpaces : Prop :=
  ∀ w : Word, (∃ e, decodeWord w = .error e) ↔
    (opField w = 0x5 ∧ nField w ≠ 0) ∨
    (opField w = 0x9 ∧ nField w ≠ 0) ∨
    (opField w = 0x8 ∧ nField w ∈ [0x8#4, 0x9#4, 0xA#4, 0xB#4, 0xC#4, 0xD#4, 0xF#4]) ∨
    (opField w = 0xE ∧ nnField w ∉ [0x9E#8, 0xA1#8]) ∨
    (opField w = 0xF ∧ nnField w ∉ [0x07#8, 0x0A#8, 0x15#8, 0x18#8, 0x1E#8, 0x29#8, 0x33#8, 0x55#8, 0x65#8])

/-- Derived (R101, R104): words written out from the spec, one or more of each family, decode to what they stand for.
`6005`, `610A` and `8014` are the source's own. -/
def Obligations.SampleWordsDecode : Prop :=
  decodeWord 0x6005 = .ok (.ldImm 0 0x05) ∧ decodeWord 0x610A = .ok (.ldImm 1 0x0A) ∧
  decodeWord 0x8014 = .ok (.addReg 0 1) ∧ decodeWord 0x00E0 = .ok .cls ∧ decodeWord 0x00EE = .ok .ret ∧
  decodeWord 0x0123 = .ok (.sys 0x123) ∧ decodeWord 0x2300 = .ok (.call 0x300) ∧
  decodeWord 0xB2F0 = .ok (.jpV0 0x2F0) ∧ decodeWord 0xD125 = .ok (.drw 1 2 5) ∧
  decodeWord 0xF533 = .ok (.ldBVx 5) ∧ decodeWord 0xE0A1 = .ok (.sknp 0) ∧ decodeWord 0xF118 = .ok (.ldStVx 1)

/-! ## The step cycle -/

/-- R109: a step of a running CORE whose fetched word decodes to `i` is the execution of `i` on that same state (the pc
advance of the fetch is inside `exec`, as the statements about each instruction say); a word that does not decode runs
no instruction and raises `InvalidOpcode`. -/
def Obligations.StepRunsTheDecodedInstruction : Prop :=
  ∀ (s : State) (w : Word), s.status = .running → s.fetchWord = .ok w →
    (∀ i : Instr, decodeWord w = .ok i → step s = exec i s) ∧
    (∀ r : Undecodable, decodeWord w = .error r →
      step s = .next (s.halted { kind := .invalidOpcode, pc := s.pc, word := some w, addr := none }))

/-- R76: the fetch takes the byte at pc as bits 15:8 and the byte at pc + 1 as bits 7:0, each address resolved on its
own: modulo 4096 under `WRAP`, as it is where both exist under `FAULT`. -/
def Obligations.FetchIsBigEndian : Prop :=
  ∀ s : State, s.quirks.memEdge = .wrap ∨ s.pc.toNat + 1 < 4096 →
    s.fetchWord = .ok (s.mem.read (s.pc.toNat % 4096) ++ s.mem.read ((s.pc.toNat + 1) % 4096))

/-- Derived (R79 with decision D8, R108, R301, R305): under `FAULT` a running CORE whose pc or pc + 1 is 4096 or more
raises `MemoryOutOfBounds` in the fetch, with no word and the first bad address; under `WRAP`, and where both addresses
exist, the fetch of a word raises nothing, an odd pc included. -/
def Obligations.FetchBeyondMemoryRaises : Prop :=
  (∀ s : State, s.status = .running → s.quirks.memEdge = .fault → 4096 ≤ s.pc.toNat + 1 →
    step s = .next (s.halted
      { kind := .memoryOutOfBounds, pc := s.pc, word := none, addr := some (max s.pc.toNat 4096) })) ∧
  (∀ s : State, s.quirks.memEdge = .wrap ∨ s.pc.toNat + 1 < 4096 → ∃ w, s.fetchWord = .ok w)

/-- Derived (R304; the tick clause is the spec's decision D32): a halted CORE's step returns the recorded error and
changes nothing else, its ticks still count down, its key snapshot is still set, and the observations still give the
current state; and from a state that meets the boot invariant no sequence of commands makes it run again. -/
def Obligations.HaltIsSticky : Prop :=
  ∀ (s : State) (e : ErrorRecord), s.status = .halted e →
    step s = .next { s with progress := .stepped (.err e) } ∧
    (tickTimers s).dt.toNat = s.dt.toNat - 1 ∧ (tickTimers s).st.toNat = s.st.toNat - 1 ∧
    (∀ (k : KeyIdx) (p : Bool), setKeyState k.val p s = .next { s with keys := s.keys.set k p }) ∧
    frameBuffer s = s.fb ∧ (soundActive s = true ↔ s.st ≠ 0) ∧ delayTimer s = s.dt ∧
    (s.bootOk → ∀ (cs : List Command) (t : State), runCommands cs s = .next t → t.status = .halted e)

/-- Derived (R302; that nothing else is committed is R303, the spec's decision D15): a step of a running CORE that
answers an error, or leaves the CORE halted, does both with one error: the state after it is the state before with
`STATUS` set to that error and the error as the step's result, so that pc is the address in the record and control has
moved to no handler. -/
def Obligations.ErrorsArePrecise : Prop :=
  ∀ (s t : State) (e : ErrorRecord), s.status = .running → step s = .next t →
    (t.progress = .stepped (.err e) ∨ t.status = .halted e) → t = s.halted e ∧ e.pc = s.pc

/-- Derived (R300; the codes are the spec's decision D16): the five errors, their codes, and who raises each under which
condition: `load` when the program is longer than 3584 bytes; the fetch when pc or pc + 1 is out of range under `FAULT`;
decoding when the word has no form; and of the instructions `SYS`, the four that access memory, calls and returns, each
under its own condition. Nothing else is raised. -/
def Obligations.OnlyTheListedErrorsAreRaised : Prop :=
  ([.romTooLarge, .invalidOpcode, .memoryOutOfBounds, .stackOverflow, .stackUnderflow].map ErrorKind.code =
    [1, 2, 3, 4, 5]) ∧
  (∀ (bytes : List Byte) (s t : State) (e : ErrorRecord), s.status = .running → load bytes s = .next t →
    t.status = .halted e → e.kind = .romTooLarge ∧ 3584 < bytes.length) ∧
  (∀ (s t : State) (e : ErrorRecord), s.status = .running → step s = .next t → t.status = .halted e →
    (e.kind = .memoryOutOfBounds ∧ s.quirks.memEdge = .fault ∧ 4096 ≤ s.pc.toNat + 1) ∨
    (e.kind = .invalidOpcode ∧ ∃ w, s.fetchWord = .ok w ∧ ∀ i, decodeWord w ≠ .ok i) ∨
    (∃ w i, s.fetchWord = .ok w ∧ decodeWord w = .ok i ∧ exec i s = .next t)) ∧
  (∀ (i : Instr) (s t : State) (e : ErrorRecord), s.status = .running → exec i s = .next t → t.status = .halted e →
    (e.kind = .invalidOpcode ∧ ∃ nnn, i = .sys nnn) ∨
    (e.kind = .memoryOutOfBounds ∧ s.quirks.memEdge = .fault ∧ (∃ a, e.addr = some a ∧ 4096 ≤ a) ∧
      ((∃ x y n, i = .drw x y n) ∨ (∃ x, i = .ldBVx x) ∨ (∃ x, i = .ldMemVx x) ∨ (∃ x, i = .ldVxMem x))) ∨
    (e.kind = .stackOverflow ∧ s.sp = 16 ∧ ∃ nnn, i = .call nnn) ∨
    (e.kind = .stackUnderflow ∧ s.sp = 0 ∧ i = .ret))

/-! ## Invariants -/

/-- Derived (R47, R351): construction with any configuration meets the invariant. -/
def Obligations.ConstructionMeetsInvariant : Prop := ∀ q : Quirks, (State.construct q).Inv

/-- Derived (R70, R301 to R304): every step of a state that meets the invariant answers a next state, and that state
meets it. -/
def Obligations.StepKeepsInvariant : Prop :=
  ∀ s : State, s.Inv → ∃ t, step s = .next t ∧ t.Inv

/-- Derived (R360, R361): every command of the host, in whatever order, keeps the invariant, whole runs of commands
included. -/
def Obligations.CommandsKeepInvariant : Prop :=
  ∀ (cs : List Command) (s t : State), s.Inv → runCommands cs s = .next t → t.Inv

/-! ## Control flow -/

/-- Derived (R140, the spec's decision D10): `0NNN` other than `00E0` and `00EE` is `SYS`, and executing it raises
`InvalidOpcode` with its own address and word. -/
def Obligations.SysRaisesInvalidOpcode : Prop :=
  ∀ (nnn : Imm12) (s : State), nnn ≠ 0x0E0#12 → nnn ≠ 0x0EE#12 →
    decodeWord (0x0#4 ++ nnn) = .ok (.sys nnn) ∧
    exec (.sys nnn) s = .next (s.halted
      { kind := .invalidOpcode, pc := s.pc, word := some (0x0#4 ++ nnn), addr := none })

/-- R141: `RET` pops the newest live entry into pc as it is, the entry staying in the array; with no live entry it
raises `StackUnderflow`. -/
def Obligations.RetPopsIntoPc : Prop :=
  decodeWord 0x00EE = .ok .ret ∧
  (∀ (s : State) (k : Fin 16), s.sp = k.succ →
    exec .ret s = .next { s with pc := s.stack[k], sp := k.castSucc, progress := .stepped .executed }) ∧
  (∀ s : State, s.sp = 0 →
    exec .ret s = .next (s.halted { kind := .stackUnderflow, pc := s.pc, word := some 0x00EE, addr := none }))

/-- R142: `1NNN` sets pc to the literal and does nothing else; an odd or low target is like any other. -/
def Obligations.JumpSetsPc : Prop :=
  ∀ (nnn : Imm12) (s : State),
    decodeWord (0x1#4 ++ nnn) = .ok (.jp nnn) ∧
    exec (.jp nnn) s = .next { s with pc := nnn.setWidth 16, progress := .stepped .executed }

/-- R143: `2NNN` pushes the address of the next instruction and jumps, for every depth below 16; at depth 16 it raises
`StackOverflow`. -/
def Obligations.CallPushesReturnAddress : Prop :=
  ∀ (nnn : Imm12) (s : State),
    decodeWord (0x2#4 ++ nnn) = .ok (.call nnn) ∧
    (∀ k : Fin 16, s.sp = k.castSucc →
      exec (.call nnn) s = .next
        { s with stack := s.stack.set k (s.pc + 2), sp := k.succ, pc := nnn.setWidth 16,
                 progress := .stepped .executed }) ∧
    (s.sp = 16 →
      exec (.call nnn) s = .next (s.halted
        { kind := .stackOverflow, pc := s.pc, word := some (0x2#4 ++ nnn), addr := none }))

/-- Derived (R141, R143): a call and the return that follows it leave pc after the call and the depth as it was. -/
def Obligations.ReturnUndoesCall : Prop :=
  ∀ (nnn : Imm12) (s : State), s.sp ≠ 16 → ∃ t u,
    exec (.call nnn) s = .next t ∧ exec .ret t = .next u ∧
    u = { s with pc := s.pc + 2, stack := u.stack, progress := .stepped .executed } ∧
    (∀ k : Fin 16, k.val < s.sp.val → u.stack[k] = s.stack[k])

/-- R144 to R147: each skip's word decodes to it, `5XYn` and `9XYn` with n not 0 to nothing, and it steps over exactly
two more bytes when its comparison holds, modulo 2^16, and changes nothing but pc. -/
def Obligations.SkipsCompareAndSkipTwoBytes : Prop :=
  ∀ (x y : RegIdx) (nn : Byte) (s : State),
    decodeWord (0x3#4 ++ nibbleOf x ++ nn) = .ok (.seImm x nn) ∧
    decodeWord (0x4#4 ++ nibbleOf x ++ nn) = .ok (.sneImm x nn) ∧
    decodeWord (0x5#4 ++ nibbleOf x ++ nibbleOf y ++ 0#4) = .ok (.seReg x y) ∧
    decodeWord (0x9#4 ++ nibbleOf x ++ nibbleOf y ++ 0#4) = .ok (.sneReg x y) ∧
    (∀ n : Nibble, n ≠ 0 → (∃ e, decodeWord (0x5#4 ++ nibbleOf x ++ nibbleOf y ++ n) = .error e) ∧
      ∃ e, decodeWord (0x9#4 ++ nibbleOf x ++ nibbleOf y ++ n) = .error e) ∧
    exec (.seImm x nn) s = .next
      { s with pc := if s.getReg x = nn then s.pc + 4 else s.pc + 2, progress := .stepped .executed } ∧
    exec (.sneImm x nn) s = .next
      { s with pc := if s.getReg x = nn then s.pc + 2 else s.pc + 4, progress := .stepped .executed } ∧
    exec (.seReg x y) s = .next
      { s with pc := if s.getReg x = s.getReg y then s.pc + 4 else s.pc + 2, progress := .stepped .executed } ∧
    exec (.sneReg x y) s = .next
      { s with pc := if s.getReg x = s.getReg y then s.pc + 2 else s.pc + 4, progress := .stepped .executed }

/-- R148: `BNNN` adds V0, or under `jump_reg = VX` the register numbered by the literal's high nibble, to the literal;
the sum never reaches 2^16, and nothing but pc changes. -/
def Obligations.JumpWithOffsetAddsRegister : Prop :=
  ∀ (h : Nibble) (lo : Byte) (s : State) (r : RegIdx),
    (s.quirks.jumpReg = .v0 → r = 0) → (s.quirks.jumpReg = .vx → r = h.toFin) →
    decodeWord (0xB#4 ++ h ++ lo) = .ok (.jpV0 (h ++ lo)) ∧
    ∃ t, exec (.jpV0 (h ++ lo)) s = .next t ∧
      t = { s with pc := t.pc, progress := .stepped .executed } ∧
      t.pc.toNat = (h ++ lo).toNat + (s.getReg r).toNat ∧ t.pc.toNat ≤ 0x10FE

/-! ## Registers and arithmetic -/

/-- R170: of the two writes, the one that `vf_order` puts last stays where they meet; elsewhere both land, and no other
register and nothing else changes. -/
def Obligations.ResultAndFlagOrder : Prop :=
  ∀ (s : State) (x : RegIdx) (result flag : Byte),
    s.writeResultAndFlag x result flag = { s with regs := (s.writeResultAndFlag x result flag).regs } ∧
    ∀ r, (s.writeResultAndFlag x result flag).getReg r = doubleWrite s x result flag r

/-- R171, R172, R173: set to a literal, add a literal modulo 256 with no flag, copy a register; the destination alone is
written, VF included where it is the destination. -/
def Obligations.LiteralAndCopyForms : Prop :=
  ∀ (x y : RegIdx) (nn : Byte) (s : State),
    decodeWord (0x6#4 ++ nibbleOf x ++ nn) = .ok (.ldImm x nn) ∧
    decodeWord (0x7#4 ++ nibbleOf x ++ nn) = .ok (.addImm x nn) ∧
    decodeWord (0x8#4 ++ nibbleOf x ++ nibbleOf y ++ 0#4) = .ok (.ldReg x y) ∧
    exec (.ldImm x nn) s = .next { s with regs := s.regs.set x nn, pc := s.pc + 2, progress := .stepped .executed } ∧
    exec (.addImm x nn) s = .next
      { s with regs := s.regs.set x (BitVec.ofNat 8 (((s.getReg x).toNat + nn.toNat) % 256)), pc := s.pc + 2,
               progress := .stepped .executed } ∧
    exec (.ldReg x y) s = .next
      { s with regs := s.regs.set x (s.getReg y), pc := s.pc + 2, progress := .stepped .executed }

/-- Derived (R174, R175, R176; that `vf_reset` covers them is the spec's decision D5): the bitwise forms write Vx, and
under `vf_reset = ON` VF too, with 0; where both writes are to VF, `vf_order` decides. -/
def Obligations.LogicalFormsAndVfReset : Prop :=
  ∀ (x y : RegIdx) (s : State) (i : Instr) (v : Byte),
    ((i = .orReg x y ∧ v = s.getReg x ||| s.getReg y) ∨ (i = .andReg x y ∧ v = s.getReg x &&& s.getReg y) ∨
      (i = .xorReg x y ∧ v = s.getReg x ^^^ s.getReg y)) →
    decodeWord (0x8#4 ++ nibbleOf x ++ nibbleOf y ++ 1#4) = .ok (.orReg x y) ∧
    decodeWord (0x8#4 ++ nibbleOf x ++ nibbleOf y ++ 2#4) = .ok (.andReg x y) ∧
    decodeWord (0x8#4 ++ nibbleOf x ++ nibbleOf y ++ 3#4) = .ok (.xorReg x y) ∧
    ∃ t, exec i s = .next t ∧ t = { s with regs := t.regs, pc := s.pc + 2, progress := .stepped .executed } ∧
      (s.quirks.vfReset = .off → ∀ r, t.getReg r = if r = x then v else s.getReg r) ∧
      (s.quirks.vfReset = .on → ∀ r, t.getReg r = doubleWrite s x v 0 r)

/-- R177: the sum modulo 256 and the carry, 1 exactly when the exact sum exceeds 255; operands are read first. -/
def Obligations.AddSetsCarry : Prop :=
  ∀ (x y : RegIdx) (s : State),
    decodeWord (0x8#4 ++ nibbleOf x ++ nibbleOf y ++ 4#4) = .ok (.addReg x y) ∧
    ∃ t, exec (.addReg x y) s = .next t ∧
      t = { s with regs := t.regs, pc := s.pc + 2, progress := .stepped .executed } ∧
      ∀ r, t.getReg r = doubleWrite s x (BitVec.ofNat 8 (((s.getReg x).toNat + (s.getReg y).toNat) % 256))
        (if (s.getReg x).toNat + (s.getReg y).toNat > 255 then 1 else 0) r

/-- Derived (R178, R180; VF = 1 for equal operands is the spec's own derivation): the difference modulo 256 and NOT
borrow, 1 exactly when the minuend is at least the subtrahend. -/
def Obligations.SubtractionsSetNoBorrow : Prop :=
  ∀ (x y : RegIdx) (s : State) (i : Instr) (a b : Byte),
    ((i = .subReg x y ∧ a = s.getReg x ∧ b = s.getReg y) ∨ (i = .subn x y ∧ a = s.getReg y ∧ b = s.getReg x)) →
    decodeWord (0x8#4 ++ nibbleOf x ++ nibbleOf y ++ 5#4) = .ok (.subReg x y) ∧
    decodeWord (0x8#4 ++ nibbleOf x ++ nibbleOf y ++ 7#4) = .ok (.subn x y) ∧
    ∃ t, exec i s = .next t ∧ t = { s with regs := t.regs, pc := s.pc + 2, progress := .stepped .executed } ∧
      ∀ r, t.getReg r = doubleWrite s x (BitVec.ofInt 8 (((a.toNat : Int) - (b.toNat : Int)) % 256))
        (if a.toNat ≥ b.toNat then 1 else 0) r

/-- R179, R181: the source, Vx or Vy as `shift_src` says, shifted by one with 0 filled in, and VF the bit shifted out.
-/
def Obligations.ShiftsSetShiftedOutBit : Prop :=
  ∀ (x y : RegIdx) (s : State) (v : Byte),
    (s.quirks.shiftSrc = .vx → v = s.getReg x) → (s.quirks.shiftSrc = .vy → v = s.getReg y) →
    decodeWord (0x8#4 ++ nibbleOf x ++ nibbleOf y ++ 0x6#4) = .ok (.shr x y) ∧
    decodeWord (0x8#4 ++ nibbleOf x ++ nibbleOf y ++ 0xE#4) = .ok (.shl x y) ∧
    (∃ t, exec (.shr x y) s = .next t ∧
      t = { s with regs := t.regs, pc := s.pc + 2, progress := .stepped .executed } ∧
      ∀ r, t.getReg r = doubleWrite s x (BitVec.ofNat 8 (v.toNat / 2)) (BitVec.ofNat 8 (v.toNat % 2)) r) ∧
    (∃ t, exec (.shl x y) s = .next t ∧
      t = { s with regs := t.regs, pc := s.pc + 2, progress := .stepped .executed } ∧
      ∀ r, t.getReg r = doubleWrite s x (BitVec.ofNat 8 (v.toNat * 2 % 256)) (BitVec.ofNat 8 (v.toNat / 128)) r)

/-- Derived (R182, R316, D24): `RND` writes the byte the oracle draws, masked by the literal, to Vx and nothing else of
the CORE's own state. The oracle is the opaque `Config.randomByte` at the model's own counter `draws` (log 3): which
byte it gives is free, and the statement holds for every value of the counter. -/
def Obligations.RandomIsMasked : Prop :=
  ∀ (x : RegIdx) (nn : Byte) (s : State),
    decodeWord (0xC#4 ++ nibbleOf x ++ nn) = .ok (.rnd x nn) ∧
    ∃ t, exec (.rnd x nn) s = .next t ∧
      t = { s with regs := t.regs, pc := s.pc + 2, progress := .stepped .executed, draws := t.draws } ∧
      t.getReg x = Config.randomByte s.draws &&& nn ∧ t.getReg x &&& ~~~nn = 0 ∧ ∀ r, r ≠ x → t.getReg r = s.getReg r

/-! ## Index register and memory -/

/-- Derived (R210, R211, R212; VF untouched is the spec's decision D34, the low nibble D20, and the glyphs at
`FONT_BASE` = 0 are D19, fixed by log 7): I set to a literal, I plus Vx modulo 2^16, I at the glyph of Vx's low nibble;
nothing but I and pc changes, VF included. -/
def Obligations.IndexForms : Prop :=
  ∀ (x : RegIdx) (nnn : Imm12) (s : State),
    decodeWord (0xA#4 ++ nnn) = .ok (.ldI nnn) ∧
    decodeWord (0xF#4 ++ nibbleOf x ++ 0x1E#8) = .ok (.addIVx x) ∧
    decodeWord (0xF#4 ++ nibbleOf x ++ 0x29#8) = .ok (.ldFVx x) ∧
    exec (.ldI nnn) s = .next
      { s with index := BitVec.ofNat 16 nnn.toNat, pc := s.pc + 2, progress := .stepped .executed } ∧
    exec (.addIVx x) s = .next
      { s with index := BitVec.ofNat 16 ((s.index.toNat + (s.getReg x).toNat) % 65536), pc := s.pc + 2,
               progress := .stepped .executed } ∧
    exec (.ldFVx x) s = .next
      { s with index := BitVec.ofNat 16 (5 * ((s.getReg x).toNat % 16)), pc := s.pc + 2,
               progress := .stepped .executed }

/-- R213: hundreds, tens and ones at I, I + 1 and I + 2, every other cell as before and I unchanged; under `FAULT` with
one of the three beyond memory, `MemoryOutOfBounds` at the first. -/
def Obligations.BcdStoresThreeDigits : Prop :=
  ∀ (x : RegIdx) (s : State), decodeWord (0xF#4 ++ nibbleOf x ++ 0x33#8) = .ok (.ldBVx x) ∧
    (s.inRange 3 → ∃ t, exec (.ldBVx x) s = .next t ∧
      t = { s with mem := t.mem, pc := s.pc + 2, progress := .stepped .executed } ∧
      (t.mem.read (s.index.toNat % 4096)).toNat = (s.getReg x).toNat / 100 ∧
      (t.mem.read ((s.index.toNat + 1) % 4096)).toNat = (s.getReg x).toNat / 10 % 10 ∧
      (t.mem.read ((s.index.toNat + 2) % 4096)).toNat = (s.getReg x).toNat % 10 ∧
      ∀ a, ¬ s.accessedCells 3 a → t.mem.read a = s.mem.read a) ∧
    (¬ s.inRange 3 → exec (.ldBVx x) s = .next (s.halted
      { kind := .memoryOutOfBounds, pc := s.pc, word := some (0xF#4 ++ nibbleOf x ++ 0x33#8),
        addr := some s.firstBad }))

/-- Derived (R214; the amount X + 1 is the spec's decision D4): V0 to Vx inclusive at I to I + X, every other cell as
before, then I moved as `index_inc` says; under `FAULT` with one of the addresses beyond memory, `MemoryOutOfBounds` at
the first and nothing stored. -/
def Obligations.RegisterStore : Prop :=
  ∀ (x : RegIdx) (s : State), decodeWord (0xF#4 ++ nibbleOf x ++ 0x55#8) = .ok (.ldMemVx x) ∧
    (s.inRange (x.val + 1) → ∃ t, exec (.ldMemVx x) s = .next t ∧
      t = { s with mem := t.mem, index := t.index, pc := s.pc + 2, progress := .stepped .executed } ∧
      (s.quirks.indexInc = .none → t.index = s.index) ∧
      (s.quirks.indexInc = .xPlus1 → t.index = BitVec.ofNat 16 ((s.index.toNat + x.val + 1) % 65536)) ∧
      (∀ r : RegIdx, r ≤ x → t.mem.read ((s.index.toNat + r.val) % 4096) = s.getReg r) ∧
      ∀ a, ¬ s.accessedCells (x.val + 1) a → t.mem.read a = s.mem.read a) ∧
    (¬ s.inRange (x.val + 1) → exec (.ldMemVx x) s = .next (s.halted
      { kind := .memoryOutOfBounds, pc := s.pc, word := some (0xF#4 ++ nibbleOf x ++ 0x55#8),
        addr := some s.firstBad }))

/-- Derived (R215; the amount X + 1 is the spec's decision D4): V0 to Vx inclusive from I to I + X, every other register
and all memory as before, then I moved as `index_inc` says; under `FAULT` with one of the addresses beyond memory,
`MemoryOutOfBounds` at the first and every register as before. -/
def Obligations.RegisterLoad : Prop :=
  ∀ (x : RegIdx) (s : State), decodeWord (0xF#4 ++ nibbleOf x ++ 0x65#8) = .ok (.ldVxMem x) ∧
    (s.inRange (x.val + 1) → ∃ t, exec (.ldVxMem x) s = .next t ∧
      t = { s with regs := t.regs, index := t.index, pc := s.pc + 2, progress := .stepped .executed } ∧
      (s.quirks.indexInc = .none → t.index = s.index) ∧
      (s.quirks.indexInc = .xPlus1 → t.index = BitVec.ofNat 16 ((s.index.toNat + x.val + 1) % 65536)) ∧
      ∀ r : RegIdx, t.getReg r = if r ≤ x then s.mem.read ((s.index.toNat + r.val) % 4096) else s.getReg r) ∧
    (¬ s.inRange (x.val + 1) → exec (.ldVxMem x) s = .next (s.halted
      { kind := .memoryOutOfBounds, pc := s.pc, word := some (0xF#4 ++ nibbleOf x ++ 0x65#8),
        addr := some s.firstBad }))

/-- Derived (R84, R372): the fetch after `FX55` or `FX33` sees every stored byte, whatever stood there: each of the two
bytes of the next word is the byte the store put into its cell, or, where it put none, the byte that was there before,
so that a word stored in part is seen too. -/
def Obligations.StoredCodeIsFetchedNext : Prop :=
  ∀ (x : RegIdx) (s : State) (i : Instr) (bs : List Byte),
    ((i = .ldMemVx x ∧ bs = s.regs.toList.take (x.val + 1)) ∨
      (i = .ldBVx x ∧ bs = [BitVec.ofNat 8 ((s.getReg x).toNat / 100), BitVec.ofNat 8 ((s.getReg x).toNat / 10 % 10),
        BitVec.ofNat 8 ((s.getReg x).toNat % 10)])) →
    s.inRange bs.length → (s.quirks.memEdge = .wrap ∨ (s.pc + 2).toNat + 1 < 4096) →
    ∃ t hi lo, exec i s = .next t ∧ t.pc = s.pc + 2 ∧ t.fetchWord = .ok (hi ++ lo) ∧
      s.holdsAfterStore bs ((s.pc + 2).toNat % 4096) hi ∧ s.holdsAfterStore bs (((s.pc + 2).toNat + 1) % 4096) lo

/-! ## Display -/

/-- R240: `00E0` turns every cell off and changes nothing but the frame buffer and pc. -/
def Obligations.ClearScreen : Prop :=
  decodeWord 0x00E0 = .ok .cls ∧
  ∀ s : State, ∃ t, exec .cls s = .next t ∧
    t = { s with fb := t.fb, pc := s.pc + 2, progress := .stepped .executed } ∧
    ∀ (c : Column) (r : Row), pixel t.fb (c, r) = false

/-- Derived (R241, R242; N = 0, the reads before any pixel and the start under `CLIP` are the spec's decisions D12, D14
and D13): every cell is XORed with whether the sprite lights it, under either `draw_edge`; VF is 1 exactly when a lit
cell was on, else 0; no other register and nothing else changes; N = 0 draws nothing and clears VF. Under `FAULT` with a
row beyond memory the draw raises `MemoryOutOfBounds` at the first and no pixel changes. -/
def Obligations.DrawXorsSprite : Prop :=
  ∀ (x y : RegIdx) (n : Nibble) (s : State),
    decodeWord (0xD#4 ++ nibbleOf x ++ nibbleOf y ++ n) = .ok (.drw x y n) ∧
    (s.inRange n.toNat → ∃ t, exec (.drw x y n) s = .next t ∧
      t = { s with fb := t.fb, regs := t.regs, pc := s.pc + 2, progress := .stepped .executed } ∧
      (∀ (c : Column) (r : Row), s.lights x y n c r → pixel t.fb (c, r) = !pixel s.fb (c, r)) ∧
      (∀ (c : Column) (r : Row), ¬ s.lights x y n c r → pixel t.fb (c, r) = pixel s.fb (c, r)) ∧
      ((∃ (c : Column) (r : Row), s.lights x y n c r ∧ pixel s.fb (c, r) = true) → t.getReg 15 = 1) ∧
      ((¬ ∃ (c : Column) (r : Row), s.lights x y n c r ∧ pixel s.fb (c, r) = true) → t.getReg 15 = 0) ∧
      (∀ r : RegIdx, r ≠ 15 → t.getReg r = s.getReg r)) ∧
    (¬ s.inRange n.toNat → exec (.drw x y n) s = .next (s.halted
      { kind := .memoryOutOfBounds, pc := s.pc, word := some (0xD#4 ++ nibbleOf x ++ nibbleOf y ++ n),
        addr := some s.firstBad }))

/-- Derived (R243, the spec's own derivation from R241 and R242): the same draw twice in a row, with Vx and Vy still the
same at the second, restores the frame buffer, and the second draw's VF is 1 exactly when the first turned on at least
one pixel. -/
def Obligations.DoubleDrawRestoresScreen : Prop :=
  ∀ (x y : RegIdx) (n : Nibble) (s t : State), s.inRange n.toNat → exec (.drw x y n) s = .next t →
    t.getReg x = s.getReg x → t.getReg y = s.getReg y →
    ∃ u, exec (.drw x y n) t = .next u ∧ u.fb = s.fb ∧
      (u.getReg 15 = 1 ↔ ∃ (c : Column) (r : Row), pixel s.fb (c, r) = false ∧ pixel t.fb (c, r) = true) ∧
      (u.getReg 15 = 1 ∨ u.getReg 15 = 0)

/-! ## Keys and timers -/

/-- Derived (R270, R271, R272; 16 or more as not pressed is the spec's decision D21): the key skips test the snapshot at
the register's value; 16 or more tests as not pressed; nothing but pc changes. -/
def Obligations.KeySkips : Prop :=
  ∀ (x : RegIdx) (s : State) (p : Bool),
    (∀ k : KeyIdx, (s.getReg x).toNat = k.val → p = s.keys[k]) → (16 ≤ (s.getReg x).toNat → p = false) →
    decodeWord (0xE#4 ++ nibbleOf x ++ 0x9E#8) = .ok (.skp x) ∧
    decodeWord (0xE#4 ++ nibbleOf x ++ 0xA1#8) = .ok (.sknp x) ∧
    exec (.skp x) s = .next
      { s with pc := if p then s.pc + 4 else s.pc + 2, progress := .stepped .executed } ∧
    exec (.sknp x) s = .next
      { s with pc := if p then s.pc + 2 else s.pc + 4, progress := .stepped .executed }

/-- Derived (R273; the level test and the choice are the spec's decision D22): with no key pressed `FX0A` blocks:
nothing changes, pc included, and the step's result is `Blocked`; with a key pressed it stores the number of one of the
pressed keys and goes on. Which of several is free: the statement holds for every choice (log 4). -/
def Obligations.WaitForKey : Prop :=
  ∀ (x : RegIdx) (s : State), decodeWord (0xF#4 ++ nibbleOf x ++ 0x0A#8) = .ok (.ldVxK x) ∧
    ((∀ k : KeyIdx, s.keys[k] = false) → exec (.ldVxK x) s = .next { s with progress := .stepped .blocked }) ∧
    ((∃ k : KeyIdx, s.keys[k] = true) → ∃ (t : State) (k : KeyIdx), exec (.ldVxK x) s = .next t ∧ s.keys[k] = true ∧
      t = { s with regs := s.regs.set x (BitVec.ofNat 8 k.val), pc := s.pc + 2, progress := .stepped .executed,
                   draws := t.draws })

/-- R274, R275, R276 and R311: the timer transfers; `sound_active` tells whether ST is not 0, in every state and so as
soon as `FX18` commits. -/
def Obligations.TimerTransfers : Prop :=
  ∀ (x : RegIdx) (s : State),
    decodeWord (0xF#4 ++ nibbleOf x ++ 0x07#8) = .ok (.ldVxDt x) ∧
    decodeWord (0xF#4 ++ nibbleOf x ++ 0x15#8) = .ok (.ldDtVx x) ∧
    decodeWord (0xF#4 ++ nibbleOf x ++ 0x18#8) = .ok (.ldStVx x) ∧
    exec (.ldVxDt x) s = .next
      { s with regs := s.regs.set x s.dt, pc := s.pc + 2, progress := .stepped .executed } ∧
    exec (.ldDtVx x) s = .next { s with dt := s.getReg x, pc := s.pc + 2, progress := .stepped .executed } ∧
    (∃ t, exec (.ldStVx x) s = .next t ∧
      t = { s with st := s.getReg x, pc := s.pc + 2, progress := .stepped .executed } ∧
      (soundActive t = true ↔ s.getReg x ≠ 0)) ∧
    (soundActive s = true ↔ s.st ≠ 0)

/-! ## The host's commands -/

/-- R310: n ticks take each timer from V to max(0, V − n), whatever the run state, and change nothing else. -/
def Obligations.TicksCountDown : Prop :=
  ∀ (n : Nat) (s : State), ∃ t, runCommands (List.replicate n .tickTimers) s = .next t ∧
    t = { s with dt := t.dt, st := t.st } ∧ t.dt.toNat = s.dt.toNat - n ∧ t.st.toNat = s.st.toNat - n

/-- Derived (R313; the refusal is the spec's decision D33, in the model's form log 12): `set_key_state` sets one key, 0
to 15, and changes nothing else; another number is refused. -/
def Obligations.SetKeyStateSetsOneKey : Prop :=
  ∀ (k : Nat) (p : Bool) (s : State),
    (k < 16 → ∃ t, setKeyState k p s = .next t ∧ t = { s with keys := t.keys } ∧
      ∀ j : KeyIdx, t.keys[j] = if j.val = k then p else s.keys[j]) ∧
    (16 ≤ k → setKeyState k p s = .refused (.keyIndexOutOfRange k))

/-- Derived (R80, R301, R352; the rest of memory after an error and the accepted order are the spec's decision D25): on
a constructed CORE that has neither loaded nor stepped, `load` of at most 3584 bytes writes them from 0x200 on and no
other cell, and changes nothing else; a longer program halts the CORE with `RomTooLarge`, its record's pc 0x200 (log
13), and writes no byte, and the next step returns that error. On any other CORE `load` is refused (log 12). -/
def Obligations.LoadWritesProgram : Prop :=
  ∀ (bytes : List Byte) (s : State),
    (s.progress = .constructed → bytes.length ≤ 3584 →
      ∃ t, load bytes s = .next t ∧ t = { s with mem := t.mem, progress := .loaded } ∧
        ∀ a, t.mem.read a = if a < 0x200 then s.mem.read a else bytes.getD (a - 0x200) (s.mem.read a)) ∧
    (s.progress = .constructed → 3584 < bytes.length → ∃ t, load bytes s = .next t ∧
      t = { s with status := .halted { kind := .romTooLarge, pc := 0x200, word := none, addr := none },
                   progress := .loaded } ∧
      step t = .next (t.halted { kind := .romTooLarge, pc := 0x200, word := none, addr := none })) ∧
    (s.progress ≠ .constructed → load bytes s = .refused .loadOutOfOrder)

/-- Derived (R47, R351, R75; timers, frame buffer, keys and `STATUS` are the spec's decision D18, the font at
`FONT_BASE` = 0 is D19, which with the glyph bytes is fixed by log 7): what construction leaves: every register, I, the
stack, SP, the timers, the frame buffer and the keys at 0, pc at 0x200, `STATUS` running, the configuration as given,
the glyphs at 0 to 79 and every other byte 0. -/
def Obligations.ConstructionValues : Prop :=
  ∀ q : Quirks, ∃ s, newCore (qcfgOfQuirks q) = .next s ∧
    (∀ r : RegIdx, s.getReg r = 0) ∧ s.index = 0 ∧ s.pc = 0x200 ∧ s.sp = 0 ∧ (∀ k : Fin 16, s.stack[k] = 0) ∧
    s.dt = 0 ∧ s.st = 0 ∧ (∀ (c : Column) (r : Row), pixel s.fb (c, r) = false) ∧ (∀ k : KeyIdx, s.keys[k] = false) ∧
    s.quirks = q ∧ s.status = .running ∧ (∀ a, 80 ≤ a → s.mem.read a = 0) ∧
    (List.range 80).map s.mem.read = fontBytes

/-- Derived (R353, the spec's decision D26): a step before any load, and one after a load of no bytes, raises
`InvalidOpcode` on the zero word, under every configuration. -/
def Obligations.StepBeforeLoadRaises : Prop :=
  ∀ q : Quirks,
    step (State.construct q) = .next ((State.construct q).halted
      { kind := .invalidOpcode, pc := 0x200, word := some 0, addr := none }) ∧
    ∃ s, load [] (State.construct q) = .next s ∧
      step s = .next (s.halted { kind := .invalidOpcode, pc := 0x200, word := some 0, addr := none })

/-- Derived (R41; the bit layout and the refusal are the spec's decisions D3 and D33, the refusal's form log 12): the
eight-bit register view names every configuration by one byte with bit 7 clear, each toggle at its bit; construction
with bit 7 set is refused; and no command changes the configuration. -/
def Obligations.QcfgLayout : Prop :=
  (∀ b : Byte, b.getLsbD 7 = true → newCore b = .refused .reservedConfigBit) ∧
  (∀ b : Byte, b.getLsbD 7 = false → ∃ s, newCore b = .next s ∧ qcfgOfQuirks s.quirks = b ∧
    (s.quirks.shiftSrc = .vy ↔ b.getLsbD 0 = true) ∧ (s.quirks.indexInc = .xPlus1 ↔ b.getLsbD 1 = true) ∧
    (s.quirks.jumpReg = .vx ↔ b.getLsbD 2 = true) ∧ (s.quirks.drawEdge = .clip ↔ b.getLsbD 3 = true) ∧
    (s.quirks.vfReset = .on ↔ b.getLsbD 4 = true) ∧ (s.quirks.vfOrder = .resultWins ↔ b.getLsbD 5 = true) ∧
    (s.quirks.memEdge = .fault ↔ b.getLsbD 6 = true)) ∧
  (∀ (c : Command) (s t : State), applyCommand c s = .next t → t.quirks = s.quirks)

/-! ## Rules about the whole machine -/

/-- Derived (R40, R41, R39, R362): no command changes the configuration, and only `set_key_state` changes the key
snapshot; both for any run of commands. -/
def Obligations.ConfigurationNeverChanges : Prop :=
  ∀ (cs : List Command) (s t : State), runCommands cs s = .next t →
    t.quirks = s.quirks ∧ ((∀ k p, Command.setKeyState k p ∉ cs) → t.keys = s.keys)

/-- Derived (R33): only these instructions change I, the transfers only under `index_inc = X_PLUS_1`. -/
def Obligations.WritersOfIndex : Prop :=
  ∀ (i : Instr) (s t : State), exec i s = .next t → t.index ≠ s.index →
    (∃ nnn, i = .ldI nnn) ∨ (∃ x, i = .addIVx x) ∨ (∃ x, i = .ldFVx x) ∨
    (s.quirks.indexInc = .xPlus1 ∧ ((∃ x, i = .ldMemVx x) ∨ (∃ x, i = .ldVxMem x)))

/-- Derived (R35, R37, R38, R70): only calls and returns reach the stack, only `FX15` and `FX18` set the timers, only
`00E0` and `DXYN` the frame buffer, only `FX33` and `FX55` memory. -/
def Obligations.WritersOfStackTimersScreenMemory : Prop :=
  ∀ (i : Instr) (s t : State), exec i s = .next t →
    (t.stack ≠ s.stack ∨ t.sp ≠ s.sp → (∃ nnn, i = .call nnn) ∨ i = .ret) ∧
    (t.dt ≠ s.dt → ∃ x, i = .ldDtVx x) ∧
    (t.st ≠ s.st → ∃ x, i = .ldStVx x) ∧
    (t.fb ≠ s.fb → i = .cls ∨ ∃ x y n, i = .drw x y n) ∧
    ((∃ a, t.mem.read a ≠ s.mem.read a) → (∃ x, i = .ldBVx x) ∨ (∃ x, i = .ldMemVx x))

/-- Derived (R32): an instruction that changes VF writes it as a flag, the bitwise forms only under `vf_reset = ON`, or
has it as its destination. -/
def Obligations.WritersOfVf : Prop :=
  ∀ (i : Instr) (s t : State), exec i s = .next t → t.getReg 15 ≠ s.getReg 15 →
    (∃ x y, i = .addReg x y ∨ i = .subReg x y ∨ i = .subn x y ∨ i = .shr x y ∨ i = .shl x y) ∨
    (∃ x y n, i = .drw x y n) ∨
    (∃ x y, (s.quirks.vfReset = .on ∨ x = 15) ∧ (i = .orReg x y ∨ i = .andReg x y ∨ i = .xorReg x y)) ∨
    (∃ nn, i = .ldImm 15 nn ∨ i = .addImm 15 nn ∨ i = .rnd 15 nn) ∨
    (∃ y, i = .ldReg 15 y) ∨ i = .ldVxDt 15 ∨ i = .ldVxK 15 ∨ i = .ldVxMem 15

/-- Derived (R37, R277): no instruction reads ST; two states that differ in ST alone step to states that differ in ST
alone. The statement compares two runs and rests on logs 3 and 4: the two states have the same counter `draws`, so
`CXNN` draws the same byte and `FX0A` chooses the same key in both, which the spec does not promise of two runs. -/
def Obligations.SoundTimerIsNotReadable : Prop :=
  ∀ (s t : State) (v : Byte), step s = .next t → ∃ w, step { s with st := v } = .next { t with st := w }

/-- Derived (R35's "stale values that no rule reads"): two states whose stacks differ only at SP and above step alike,
and still differ only at SP and above. The statement compares two runs and rests on logs 3 and 4: the two states have
the same counter `draws`, so `CXNN` draws the same byte and `FX0A` chooses the same key in both, which the spec does not
promise of two runs. -/
def Obligations.StaleStackEntriesAreNotReadable : Prop :=
  ∀ (s t : State) (k : Vector Word 16), (∀ j : Fin 16, j.val < s.sp.val → k[j] = s.stack[j]) → step s = .next t →
    ∃ k' : Vector Word 16, step { s with stack := k } = .next { t with stack := k' } ∧
      ∀ j : Fin 16, j.val < t.sp.val → k'[j] = t.stack[j]

/-- Derived (R71, R300): under `mem_edge = WRAP` no command of a CORE that has not halted on an out-of-range address
makes it do so. -/
def Obligations.WrapNeverRunsOutOfBounds : Prop :=
  ∀ (cs : List Command) (s t : State) (e : ErrorRecord), s.quirks.memEdge = .wrap → s.status = .running →
    runCommands cs s = .next t → t.status = .halted e → e.kind ≠ .memoryOutOfBounds

/-! ## Frames

What an instruction leaves unchanged whenever `exec` answers a next state, the error path included; memory is read one
byte at a time. -/

/-- Derived (R171 to R173, R182, R274): the forms that write one register and no flag change that register alone; `RND`
uses a free value. -/
def Obligations.SingleRegisterFormsFrame : Prop :=
  ∀ (x y : RegIdx) (nn : Byte) (s t : State),
    (exec (.ldImm x nn) s = .next t ∨ exec (.addImm x nn) s = .next t ∨ exec (.ldReg x y) s = .next t ∨
      exec (.ldVxDt x) s = .next t → Frame { regs := fun r => r = x } s t) ∧
    (exec (.rnd x nn) s = .next t ∨ exec (.ldVxK x) s = .next t →
      Frame { regs := fun r => r = x, draws := True } s t)

/-- Derived (R32, R174 to R181): the forms that write a result and a flag change Vx and VF alone, the bitwise ones VF
only under `vf_reset = ON` or as the destination. -/
def Obligations.FlagFormsFrame : Prop :=
  ∀ (x y : RegIdx) (s t : State),
    (exec (.addReg x y) s = .next t ∨ exec (.subReg x y) s = .next t ∨ exec (.subn x y) s = .next t ∨
      exec (.shr x y) s = .next t ∨ exec (.shl x y) s = .next t → Frame { regs := fun r => r = x ∨ r = 15 } s t) ∧
    (exec (.orReg x y) s = .next t ∨ exec (.andReg x y) s = .next t ∨ exec (.xorReg x y) s = .next t →
      Frame { regs := fun r => r = x ∨ (r = 15 ∧ s.quirks.vfReset = .on) } s t)

/-- Derived (R140 to R149, R271, R272): control flow and skips change pc alone, and calls and returns the stack; only
`SYS`, calls and returns may set `STATUS`. -/
def Obligations.ControlFormsFrame : Prop :=
  ∀ (x y : RegIdx) (nn : Byte) (nnn : Imm12) (s t : State),
    (exec (.jp nnn) s = .next t ∨ exec (.jpV0 nnn) s = .next t ∨ exec (.seImm x nn) s = .next t ∨
      exec (.sneImm x nn) s = .next t ∨ exec (.seReg x y) s = .next t ∨ exec (.sneReg x y) s = .next t ∨
      exec (.skp x) s = .next t ∨ exec (.sknp x) s = .next t → Frame {} s t) ∧
    (exec (.sys nnn) s = .next t → Frame { status := True } s t) ∧
    (exec (.call nnn) s = .next t ∨ exec .ret s = .next t → Frame { stack := True, status := True } s t)

/-- Derived (R210 to R212, R240, R241, R275, R276): the forms that write I, a timer or the frame buffer change it alone;
a draw changes VF too. -/
def Obligations.IndexTimerScreenFormsFrame : Prop :=
  ∀ (x y : RegIdx) (n : Nibble) (nnn : Imm12) (s t : State),
    (exec (.ldI nnn) s = .next t ∨ exec (.addIVx x) s = .next t ∨ exec (.ldFVx x) s = .next t →
      Frame { index := True } s t) ∧
    (exec (.ldDtVx x) s = .next t → Frame { delay := True } s t) ∧
    (exec (.ldStVx x) s = .next t → Frame { sound := True } s t) ∧
    (exec .cls s = .next t → Frame { screen := True } s t) ∧
    (exec (.drw x y n) s = .next t → Frame { screen := True, regs := fun r => r = 15, status := True } s t)

/-- Derived (R213 to R216): the forms that access memory at I store only to the cells their addresses resolve to, a load
to none; a load writes V0 to Vx, and the transfers may move I under `index_inc = X_PLUS_1`. -/
def Obligations.MemoryFormsFrame : Prop :=
  ∀ (x : RegIdx) (s t : State),
    (exec (.ldBVx x) s = .next t → Frame { cells := s.accessedCells 3, status := True } s t) ∧
    (exec (.ldMemVx x) s = .next t →
      Frame { cells := s.accessedCells (x.val + 1), index := s.quirks.indexInc = .xPlus1, status := True } s t) ∧
    (exec (.ldVxMem x) s = .next t →
      Frame { regs := fun r => r ≤ x, index := s.quirks.indexInc = .xPlus1, status := True } s t)
end

