-- ==== Sys2Proof/Laws/State.lean ====
section
/-! SUPPORT. One lemma per field per named update of the state, so that no proof unfolds a record update, and the
reading of a register after a write. -/

namespace Sys2Proof.Machine

variable (s : State)

/-! ### `setReg` -/

@[simp] theorem State.setReg_regs (r : RegIdx) (v : Byte) : (s.setReg r v).regs = s.regs.set r v := rfl
@[simp] theorem State.setReg_index (r : RegIdx) (v : Byte) : (s.setReg r v).index = s.index := rfl
@[simp] theorem State.setReg_pc (r : RegIdx) (v : Byte) : (s.setReg r v).pc = s.pc := rfl
@[simp] theorem State.setReg_stack (r : RegIdx) (v : Byte) : (s.setReg r v).stack = s.stack := rfl
@[simp] theorem State.setReg_sp (r : RegIdx) (v : Byte) : (s.setReg r v).sp = s.sp := rfl
@[simp] theorem State.setReg_dt (r : RegIdx) (v : Byte) : (s.setReg r v).dt = s.dt := rfl
@[simp] theorem State.setReg_st (r : RegIdx) (v : Byte) : (s.setReg r v).st = s.st := rfl
@[simp] theorem State.setReg_fb (r : RegIdx) (v : Byte) : (s.setReg r v).fb = s.fb := rfl
@[simp] theorem State.setReg_keys (r : RegIdx) (v : Byte) : (s.setReg r v).keys = s.keys := rfl
@[simp] theorem State.setReg_mem (r : RegIdx) (v : Byte) : (s.setReg r v).mem = s.mem := rfl
@[simp] theorem State.setReg_quirks (r : RegIdx) (v : Byte) : (s.setReg r v).quirks = s.quirks := rfl
@[simp] theorem State.setReg_status (r : RegIdx) (v : Byte) : (s.setReg r v).status = s.status := rfl
@[simp] theorem State.setReg_progress (r : RegIdx) (v : Byte) : (s.setReg r v).progress = s.progress := rfl
@[simp] theorem State.setReg_draws (r : RegIdx) (v : Byte) : (s.setReg r v).draws = s.draws := rfl

/-! ### `setIndex` -/

@[simp] theorem State.setIndex_regs (v : Word) : (s.setIndex v).regs = s.regs := rfl
@[simp] theorem State.setIndex_index (v : Word) : (s.setIndex v).index = v := rfl
@[simp] theorem State.setIndex_pc (v : Word) : (s.setIndex v).pc = s.pc := rfl
@[simp] theorem State.setIndex_stack (v : Word) : (s.setIndex v).stack = s.stack := rfl
@[simp] theorem State.setIndex_sp (v : Word) : (s.setIndex v).sp = s.sp := rfl
@[simp] theorem State.setIndex_dt (v : Word) : (s.setIndex v).dt = s.dt := rfl
@[simp] theorem State.setIndex_st (v : Word) : (s.setIndex v).st = s.st := rfl
@[simp] theorem State.setIndex_fb (v : Word) : (s.setIndex v).fb = s.fb := rfl
@[simp] theorem State.setIndex_keys (v : Word) : (s.setIndex v).keys = s.keys := rfl
@[simp] theorem State.setIndex_mem (v : Word) : (s.setIndex v).mem = s.mem := rfl
@[simp] theorem State.setIndex_quirks (v : Word) : (s.setIndex v).quirks = s.quirks := rfl
@[simp] theorem State.setIndex_status (v : Word) : (s.setIndex v).status = s.status := rfl
@[simp] theorem State.setIndex_progress (v : Word) : (s.setIndex v).progress = s.progress := rfl
@[simp] theorem State.setIndex_draws (v : Word) : (s.setIndex v).draws = s.draws := rfl

/-! ### `setPc` -/

@[simp] theorem State.setPc_regs (v : Word) : (s.setPc v).regs = s.regs := rfl
@[simp] theorem State.setPc_index (v : Word) : (s.setPc v).index = s.index := rfl
@[simp] theorem State.setPc_pc (v : Word) : (s.setPc v).pc = v := rfl
@[simp] theorem State.setPc_stack (v : Word) : (s.setPc v).stack = s.stack := rfl
@[simp] theorem State.setPc_sp (v : Word) : (s.setPc v).sp = s.sp := rfl
@[simp] theorem State.setPc_dt (v : Word) : (s.setPc v).dt = s.dt := rfl
@[simp] theorem State.setPc_st (v : Word) : (s.setPc v).st = s.st := rfl
@[simp] theorem State.setPc_fb (v : Word) : (s.setPc v).fb = s.fb := rfl
@[simp] theorem State.setPc_keys (v : Word) : (s.setPc v).keys = s.keys := rfl
@[simp] theorem State.setPc_mem (v : Word) : (s.setPc v).mem = s.mem := rfl
@[simp] theorem State.setPc_quirks (v : Word) : (s.setPc v).quirks = s.quirks := rfl
@[simp] theorem State.setPc_status (v : Word) : (s.setPc v).status = s.status := rfl
@[simp] theorem State.setPc_progress (v : Word) : (s.setPc v).progress = s.progress := rfl
@[simp] theorem State.setPc_draws (v : Word) : (s.setPc v).draws = s.draws := rfl

/-! ### `advance` -/

@[simp] theorem State.advance_regs : (s.advance).regs = s.regs := rfl
@[simp] theorem State.advance_index : (s.advance).index = s.index := rfl
@[simp] theorem State.advance_pc : (s.advance).pc = s.pc + 2 := rfl
@[simp] theorem State.advance_stack : (s.advance).stack = s.stack := rfl
@[simp] theorem State.advance_sp : (s.advance).sp = s.sp := rfl
@[simp] theorem State.advance_dt : (s.advance).dt = s.dt := rfl
@[simp] theorem State.advance_st : (s.advance).st = s.st := rfl
@[simp] theorem State.advance_fb : (s.advance).fb = s.fb := rfl
@[simp] theorem State.advance_keys : (s.advance).keys = s.keys := rfl
@[simp] theorem State.advance_mem : (s.advance).mem = s.mem := rfl
@[simp] theorem State.advance_quirks : (s.advance).quirks = s.quirks := rfl
@[simp] theorem State.advance_status : (s.advance).status = s.status := rfl
@[simp] theorem State.advance_progress : (s.advance).progress = s.progress := rfl
@[simp] theorem State.advance_draws : (s.advance).draws = s.draws := rfl

/-! ### `setDelay` -/

@[simp] theorem State.setDelay_regs (v : Byte) : (s.setDelay v).regs = s.regs := rfl
@[simp] theorem State.setDelay_index (v : Byte) : (s.setDelay v).index = s.index := rfl
@[simp] theorem State.setDelay_pc (v : Byte) : (s.setDelay v).pc = s.pc := rfl
@[simp] theorem State.setDelay_stack (v : Byte) : (s.setDelay v).stack = s.stack := rfl
@[simp] theorem State.setDelay_sp (v : Byte) : (s.setDelay v).sp = s.sp := rfl
@[simp] theorem State.setDelay_dt (v : Byte) : (s.setDelay v).dt = v := rfl
@[simp] theorem State.setDelay_st (v : Byte) : (s.setDelay v).st = s.st := rfl
@[simp] theorem State.setDelay_fb (v : Byte) : (s.setDelay v).fb = s.fb := rfl
@[simp] theorem State.setDelay_keys (v : Byte) : (s.setDelay v).keys = s.keys := rfl
@[simp] theorem State.setDelay_mem (v : Byte) : (s.setDelay v).mem = s.mem := rfl
@[simp] theorem State.setDelay_quirks (v : Byte) : (s.setDelay v).quirks = s.quirks := rfl
@[simp] theorem State.setDelay_status (v : Byte) : (s.setDelay v).status = s.status := rfl
@[simp] theorem State.setDelay_progress (v : Byte) : (s.setDelay v).progress = s.progress := rfl
@[simp] theorem State.setDelay_draws (v : Byte) : (s.setDelay v).draws = s.draws := rfl

/-! ### `setSound` -/

@[simp] theorem State.setSound_regs (v : Byte) : (s.setSound v).regs = s.regs := rfl
@[simp] theorem State.setSound_index (v : Byte) : (s.setSound v).index = s.index := rfl
@[simp] theorem State.setSound_pc (v : Byte) : (s.setSound v).pc = s.pc := rfl
@[simp] theorem State.setSound_stack (v : Byte) : (s.setSound v).stack = s.stack := rfl
@[simp] theorem State.setSound_sp (v : Byte) : (s.setSound v).sp = s.sp := rfl
@[simp] theorem State.setSound_dt (v : Byte) : (s.setSound v).dt = s.dt := rfl
@[simp] theorem State.setSound_st (v : Byte) : (s.setSound v).st = v := rfl
@[simp] theorem State.setSound_fb (v : Byte) : (s.setSound v).fb = s.fb := rfl
@[simp] theorem State.setSound_keys (v : Byte) : (s.setSound v).keys = s.keys := rfl
@[simp] theorem State.setSound_mem (v : Byte) : (s.setSound v).mem = s.mem := rfl
@[simp] theorem State.setSound_quirks (v : Byte) : (s.setSound v).quirks = s.quirks := rfl
@[simp] theorem State.setSound_status (v : Byte) : (s.setSound v).status = s.status := rfl
@[simp] theorem State.setSound_progress (v : Byte) : (s.setSound v).progress = s.progress := rfl
@[simp] theorem State.setSound_draws (v : Byte) : (s.setSound v).draws = s.draws := rfl

/-! ### `setScreen` -/

@[simp] theorem State.setScreen_regs (f : FrameBuffer) : (s.setScreen f).regs = s.regs := rfl
@[simp] theorem State.setScreen_index (f : FrameBuffer) : (s.setScreen f).index = s.index := rfl
@[simp] theorem State.setScreen_pc (f : FrameBuffer) : (s.setScreen f).pc = s.pc := rfl
@[simp] theorem State.setScreen_stack (f : FrameBuffer) : (s.setScreen f).stack = s.stack := rfl
@[simp] theorem State.setScreen_sp (f : FrameBuffer) : (s.setScreen f).sp = s.sp := rfl
@[simp] theorem State.setScreen_dt (f : FrameBuffer) : (s.setScreen f).dt = s.dt := rfl
@[simp] theorem State.setScreen_st (f : FrameBuffer) : (s.setScreen f).st = s.st := rfl
@[simp] theorem State.setScreen_fb (f : FrameBuffer) : (s.setScreen f).fb = f := rfl
@[simp] theorem State.setScreen_keys (f : FrameBuffer) : (s.setScreen f).keys = s.keys := rfl
@[simp] theorem State.setScreen_mem (f : FrameBuffer) : (s.setScreen f).mem = s.mem := rfl
@[simp] theorem State.setScreen_quirks (f : FrameBuffer) : (s.setScreen f).quirks = s.quirks := rfl
@[simp] theorem State.setScreen_status (f : FrameBuffer) : (s.setScreen f).status = s.status := rfl
@[simp] theorem State.setScreen_progress (f : FrameBuffer) : (s.setScreen f).progress = s.progress := rfl
@[simp] theorem State.setScreen_draws (f : FrameBuffer) : (s.setScreen f).draws = s.draws := rfl

/-! ### `setMem` -/

@[simp] theorem State.setMem_regs (m : Memory) : (s.setMem m).regs = s.regs := rfl
@[simp] theorem State.setMem_index (m : Memory) : (s.setMem m).index = s.index := rfl
@[simp] theorem State.setMem_pc (m : Memory) : (s.setMem m).pc = s.pc := rfl
@[simp] theorem State.setMem_stack (m : Memory) : (s.setMem m).stack = s.stack := rfl
@[simp] theorem State.setMem_sp (m : Memory) : (s.setMem m).sp = s.sp := rfl
@[simp] theorem State.setMem_dt (m : Memory) : (s.setMem m).dt = s.dt := rfl
@[simp] theorem State.setMem_st (m : Memory) : (s.setMem m).st = s.st := rfl
@[simp] theorem State.setMem_fb (m : Memory) : (s.setMem m).fb = s.fb := rfl
@[simp] theorem State.setMem_keys (m : Memory) : (s.setMem m).keys = s.keys := rfl
@[simp] theorem State.setMem_mem (m : Memory) : (s.setMem m).mem = m := rfl
@[simp] theorem State.setMem_quirks (m : Memory) : (s.setMem m).quirks = s.quirks := rfl
@[simp] theorem State.setMem_status (m : Memory) : (s.setMem m).status = s.status := rfl
@[simp] theorem State.setMem_progress (m : Memory) : (s.setMem m).progress = s.progress := rfl
@[simp] theorem State.setMem_draws (m : Memory) : (s.setMem m).draws = s.draws := rfl

/-! ### `countDraw` -/

@[simp] theorem State.countDraw_regs : (s.countDraw).regs = s.regs := rfl
@[simp] theorem State.countDraw_index : (s.countDraw).index = s.index := rfl
@[simp] theorem State.countDraw_pc : (s.countDraw).pc = s.pc := rfl
@[simp] theorem State.countDraw_stack : (s.countDraw).stack = s.stack := rfl
@[simp] theorem State.countDraw_sp : (s.countDraw).sp = s.sp := rfl
@[simp] theorem State.countDraw_dt : (s.countDraw).dt = s.dt := rfl
@[simp] theorem State.countDraw_st : (s.countDraw).st = s.st := rfl
@[simp] theorem State.countDraw_fb : (s.countDraw).fb = s.fb := rfl
@[simp] theorem State.countDraw_keys : (s.countDraw).keys = s.keys := rfl
@[simp] theorem State.countDraw_mem : (s.countDraw).mem = s.mem := rfl
@[simp] theorem State.countDraw_quirks : (s.countDraw).quirks = s.quirks := rfl
@[simp] theorem State.countDraw_status : (s.countDraw).status = s.status := rfl
@[simp] theorem State.countDraw_progress : (s.countDraw).progress = s.progress := rfl
@[simp] theorem State.countDraw_draws : (s.countDraw).draws = s.draws + 1 := rfl

/-! ### `setStatus` -/

@[simp] theorem State.setStatus_regs (x : Status) : (s.setStatus x).regs = s.regs := rfl
@[simp] theorem State.setStatus_index (x : Status) : (s.setStatus x).index = s.index := rfl
@[simp] theorem State.setStatus_pc (x : Status) : (s.setStatus x).pc = s.pc := rfl
@[simp] theorem State.setStatus_stack (x : Status) : (s.setStatus x).stack = s.stack := rfl
@[simp] theorem State.setStatus_sp (x : Status) : (s.setStatus x).sp = s.sp := rfl
@[simp] theorem State.setStatus_dt (x : Status) : (s.setStatus x).dt = s.dt := rfl
@[simp] theorem State.setStatus_st (x : Status) : (s.setStatus x).st = s.st := rfl
@[simp] theorem State.setStatus_fb (x : Status) : (s.setStatus x).fb = s.fb := rfl
@[simp] theorem State.setStatus_keys (x : Status) : (s.setStatus x).keys = s.keys := rfl
@[simp] theorem State.setStatus_mem (x : Status) : (s.setStatus x).mem = s.mem := rfl
@[simp] theorem State.setStatus_quirks (x : Status) : (s.setStatus x).quirks = s.quirks := rfl
@[simp] theorem State.setStatus_status (x : Status) : (s.setStatus x).status = x := rfl
@[simp] theorem State.setStatus_progress (x : Status) : (s.setStatus x).progress = s.progress := rfl
@[simp] theorem State.setStatus_draws (x : Status) : (s.setStatus x).draws = s.draws := rfl

/-! ### `setProgress` -/

@[simp] theorem State.setProgress_regs (p : Progress) : (s.setProgress p).regs = s.regs := rfl
@[simp] theorem State.setProgress_index (p : Progress) : (s.setProgress p).index = s.index := rfl
@[simp] theorem State.setProgress_pc (p : Progress) : (s.setProgress p).pc = s.pc := rfl
@[simp] theorem State.setProgress_stack (p : Progress) : (s.setProgress p).stack = s.stack := rfl
@[simp] theorem State.setProgress_sp (p : Progress) : (s.setProgress p).sp = s.sp := rfl
@[simp] theorem State.setProgress_dt (p : Progress) : (s.setProgress p).dt = s.dt := rfl
@[simp] theorem State.setProgress_st (p : Progress) : (s.setProgress p).st = s.st := rfl
@[simp] theorem State.setProgress_fb (p : Progress) : (s.setProgress p).fb = s.fb := rfl
@[simp] theorem State.setProgress_keys (p : Progress) : (s.setProgress p).keys = s.keys := rfl
@[simp] theorem State.setProgress_mem (p : Progress) : (s.setProgress p).mem = s.mem := rfl
@[simp] theorem State.setProgress_quirks (p : Progress) : (s.setProgress p).quirks = s.quirks := rfl
@[simp] theorem State.setProgress_status (p : Progress) : (s.setProgress p).status = s.status := rfl
@[simp] theorem State.setProgress_progress (p : Progress) : (s.setProgress p).progress = p := rfl
@[simp] theorem State.setProgress_draws (p : Progress) : (s.setProgress p).draws = s.draws := rfl

/-! ### `skipIf` -/

@[simp] theorem State.skipIf_regs (c : Bool) : (s.skipIf c).regs = s.regs := by cases c <;> rfl
@[simp] theorem State.skipIf_index (c : Bool) : (s.skipIf c).index = s.index := by cases c <;> rfl
@[simp] theorem State.skipIf_pc (c : Bool) : (s.skipIf c).pc = if c then s.pc + 2 else s.pc := by
  cases c <;> rfl
@[simp] theorem State.skipIf_stack (c : Bool) : (s.skipIf c).stack = s.stack := by cases c <;> rfl
@[simp] theorem State.skipIf_sp (c : Bool) : (s.skipIf c).sp = s.sp := by cases c <;> rfl
@[simp] theorem State.skipIf_dt (c : Bool) : (s.skipIf c).dt = s.dt := by cases c <;> rfl
@[simp] theorem State.skipIf_st (c : Bool) : (s.skipIf c).st = s.st := by cases c <;> rfl
@[simp] theorem State.skipIf_fb (c : Bool) : (s.skipIf c).fb = s.fb := by cases c <;> rfl
@[simp] theorem State.skipIf_keys (c : Bool) : (s.skipIf c).keys = s.keys := by cases c <;> rfl
@[simp] theorem State.skipIf_mem (c : Bool) : (s.skipIf c).mem = s.mem := by cases c <;> rfl
@[simp] theorem State.skipIf_quirks (c : Bool) : (s.skipIf c).quirks = s.quirks := by cases c <;> rfl
@[simp] theorem State.skipIf_status (c : Bool) : (s.skipIf c).status = s.status := by cases c <;> rfl
@[simp] theorem State.skipIf_progress (c : Bool) : (s.skipIf c).progress = s.progress := by cases c <;> rfl
@[simp] theorem State.skipIf_draws (c : Bool) : (s.skipIf c).draws = s.draws := by cases c <;> rfl

/-! ### `tickTimers` -/

@[simp] theorem tickTimers_regs : (tickTimers s).regs = s.regs := rfl
@[simp] theorem tickTimers_index : (tickTimers s).index = s.index := rfl
@[simp] theorem tickTimers_pc : (tickTimers s).pc = s.pc := rfl
@[simp] theorem tickTimers_stack : (tickTimers s).stack = s.stack := rfl
@[simp] theorem tickTimers_sp : (tickTimers s).sp = s.sp := rfl
@[simp] theorem tickTimers_dt : (tickTimers s).dt = tickByte s.dt := rfl
@[simp] theorem tickTimers_st : (tickTimers s).st = tickByte s.st := rfl
@[simp] theorem tickTimers_fb : (tickTimers s).fb = s.fb := rfl
@[simp] theorem tickTimers_keys : (tickTimers s).keys = s.keys := rfl
@[simp] theorem tickTimers_mem : (tickTimers s).mem = s.mem := rfl
@[simp] theorem tickTimers_quirks : (tickTimers s).quirks = s.quirks := rfl
@[simp] theorem tickTimers_status : (tickTimers s).status = s.status := rfl
@[simp] theorem tickTimers_progress : (tickTimers s).progress = s.progress := rfl
@[simp] theorem tickTimers_draws : (tickTimers s).draws = s.draws := rfl

/-! ### Reading a register -/

/-- A register after a write: the value written where it is that register, else as before. -/
theorem State.getReg_setReg (r q : RegIdx) (v : Byte) :
    (s.setReg r v).getReg q = if q = r then v else s.getReg q := by
  simp only [State.getReg, State.setReg, Fin.getElem_fin, Vector.getElem_set, Fin.ext_iff]
  split <;> split <;> simp_all

@[simp] theorem State.getReg_setReg_self (r : RegIdx) (v : Byte) : (s.setReg r v).getReg r = v := by
  simp [State.getReg_setReg]

/-- Reading a register depends on the register file alone. -/
theorem State.getReg_congr (s t : State) (h : t.regs = s.regs) (r : RegIdx) : t.getReg r = s.getReg r := by
  simp [State.getReg, h]

@[simp] theorem State.getReg_setIndex (v : Word) (r : RegIdx) : (s.setIndex v).getReg r = s.getReg r := rfl
@[simp] theorem State.getReg_setPc (v : Word) (r : RegIdx) : (s.setPc v).getReg r = s.getReg r := rfl
@[simp] theorem State.getReg_advance (r : RegIdx) : (s.advance).getReg r = s.getReg r := rfl
@[simp] theorem State.getReg_setDelay (v : Byte) (r : RegIdx) : (s.setDelay v).getReg r = s.getReg r := rfl
@[simp] theorem State.getReg_setSound (v : Byte) (r : RegIdx) : (s.setSound v).getReg r = s.getReg r := rfl
@[simp] theorem State.getReg_setScreen (f : FrameBuffer) (r : RegIdx) : (s.setScreen f).getReg r = s.getReg r := rfl
@[simp] theorem State.getReg_setMem (m : Memory) (r : RegIdx) : (s.setMem m).getReg r = s.getReg r := rfl
@[simp] theorem State.getReg_countDraw (r : RegIdx) : (s.countDraw).getReg r = s.getReg r := rfl
@[simp] theorem State.getReg_setStatus (x : Status) (r : RegIdx) : (s.setStatus x).getReg r = s.getReg r := rfl
@[simp] theorem State.getReg_setProgress (p : Progress) (r : RegIdx) : (s.setProgress p).getReg r = s.getReg r := rfl
@[simp] theorem State.getReg_skipIf (c : Bool) (r : RegIdx) : (s.skipIf c).getReg r = s.getReg r := by
  cases c <;> rfl

end Sys2Proof.Machine
end

