-- ==== Sys2Proof/Laws/Memory.lean ====
section
/-! SUPPORT. The laws of the memory array: read after write, a write leaves every other cell alone, every operation keeps
the canonical form, and what a run of byte accesses answers. -/

namespace Sys2Proof.Machine

/-! ## One cell -/

theorem Memory.read_erase (m : Memory) (a c : Nat) :
    (Memory.erase m a).read c = if c = a then unlistedByte c else m.read c := by
  induction m with
  | nil => simp [Memory.erase, Memory.read]
  | cons e m ih =>
    obtain ⟨k, b⟩ := e
    simp only [Memory.erase] at ih ⊢
    by_cases hk : k = a
    · subst hk; simp only [List.filter_cons, bne_self_eq_false, Bool.false_eq_true, if_false, ih, Memory.read]
      split <;> rfl
    · have : (k != a) = true := by simpa using hk
      simp only [List.filter_cons, this, if_true, Memory.read, ih]
      by_cases hc : c = k
      · subst hc; simp [hk]
      · simp [hc]

theorem Memory.read_insert (m : Memory) (a c : Nat) (v : Byte) (h : m.read a = unlistedByte a ∨ c ≠ a)
    (hm : ∀ e ∈ m, e.1 ≠ a) : (Memory.insert m a v).read c = if c = a then v else m.read c := by
  induction m with
  | nil => simp [Memory.insert, Memory.read]
  | cons e m ih =>
    obtain ⟨k, b⟩ := e
    have hk : k ≠ a := hm (k, b) (by simp)
    simp only [Memory.insert]
    split
    · simp [Memory.read]
    · simp only [Memory.read]
      have := ih (by simpa [Memory.read, Ne.symm hk] using h) fun e he => hm e (by simp [he])
      rw [this]
      by_cases hc : c = k
      · subst hc; simp [hk]
      · simp [hc]

/-- A cell after a write: the value written there, every other cell as before. -/
theorem Memory.read_write (m : Memory) (a c : Nat) (v : Byte) :
    (m.write a v).read c = if c = a then v else m.read c := by
  simp only [Memory.write]
  split
  · next h => rw [Memory.read_erase]; split <;> simp_all
  · rw [Memory.read_insert _ _ _ _ (.inl (by simp [Memory.read_erase])) (by simp [Memory.erase]), Memory.read_erase]
    split <;> simp_all

/-- Past the font region construction leaves zeros. -/
theorem unlistedByte_of_ge {a : Nat} (h : 80 ≤ a) : unlistedByte a = 0 :=
  if_neg (by simp only [Config.fontBase, Config.glyphBytes, Config.glyphCount]; omega)

/-- In the font region construction leaves the glyph bytes. -/
theorem unlistedByte_of_lt {a : Nat} (h : a < 80) : unlistedByte a = (glyphRows (a / 5)).getD (a % 5) 0 :=
  if_pos (by simp only [Config.fontBase, Config.glyphBytes, Config.glyphCount]; omega)

/-! ## The canonical form -/

theorem Memory.wfFrom_le {lo lo' : Nat} {m : Memory} (h : Memory.wfFrom lo m = true) (hl : lo' ≤ lo) :
    Memory.wfFrom lo' m = true := by
  cases m with
  | nil => rfl
  | cons e m =>
    simp only [Memory.wfFrom, Bool.and_eq_true, decide_eq_true_eq] at h ⊢
    exact ⟨⟨⟨by omega, h.1.1.2⟩, h.1.2⟩, h.2⟩

theorem Memory.wfFrom_erase {lo : Nat} {m : Memory} (a : Nat) (h : Memory.wfFrom lo m = true) :
    Memory.wfFrom lo (m.erase a) = true := by
  induction m generalizing lo with
  | nil => rfl
  | cons e m ih =>
    obtain ⟨k, b⟩ := e
    simp only [Memory.wfFrom, Bool.and_eq_true, decide_eq_true_eq] at h
    simp only [Memory.erase] at ih ⊢
    by_cases hk : k = a
    · simp only [List.filter_cons, hk, bne_self_eq_false, Bool.false_eq_true, if_false]
      exact Memory.wfFrom_le (by simpa [hk] using ih h.2) (by omega)
    · have : (k != a) = true := by simpa using hk
      simp only [List.filter_cons, this, if_true, Memory.wfFrom, Bool.and_eq_true, decide_eq_true_eq]
      exact ⟨h.1, ih h.2⟩

theorem Memory.wfFrom_insert {lo : Nat} {m : Memory} {a : Nat} {v : Byte} (h : Memory.wfFrom lo m = true)
    (hm : ∀ e ∈ m, e.1 ≠ a) (hlo : lo ≤ a) (ha : a < Config.memSize) (hv : v ≠ unlistedByte a) :
    Memory.wfFrom lo (m.insert a v) = true := by
  induction m generalizing lo with
  | nil => simp [Memory.insert, Memory.wfFrom, hlo, ha, hv]
  | cons e m ih =>
    obtain ⟨k, b⟩ := e
    have hk : k ≠ a := hm (k, b) (by simp)
    simp only [Memory.wfFrom, Bool.and_eq_true, decide_eq_true_eq, bne_iff_ne] at h
    simp only [Memory.insert]
    split
    · simp only [Memory.wfFrom, Bool.and_eq_true, decide_eq_true_eq, bne_iff_ne]
      exact ⟨⟨⟨hlo, ha⟩, hv⟩, ⟨⟨by omega, h.1.1.2⟩, h.1.2⟩, h.2⟩
    · simp only [Memory.wfFrom, Bool.and_eq_true, decide_eq_true_eq, bne_iff_ne]
      exact ⟨h.1, ih h.2 (fun e he => hm e (by simp [he])) (by omega)⟩

/-- A write to a cell of the array keeps the canonical form. -/
theorem Memory.wf_write {m : Memory} {a : Nat} {v : Byte} (h : m.wf = true) (ha : a < Config.memSize) :
    (m.write a v).wf = true := by
  simp only [Memory.wf, Memory.write] at h ⊢
  split
  · exact Memory.wfFrom_erase a h
  · next hv => exact Memory.wfFrom_insert (Memory.wfFrom_erase a h) (by simp [Memory.erase]) (by omega) ha hv

theorem Memory.wf_writeRange {m : Memory} {a : Nat} {vs : List Byte} (h : m.wf = true)
    (ha : a + vs.length ≤ Config.memSize) : (m.writeRange a vs).wf = true := by
  induction vs generalizing m a with
  | nil => exact h
  | cons v vs ih =>
    simp only [List.length_cons] at ha
    exact ih (Memory.wf_write h (by omega)) (by omega)

/-- The cells of a loaded range. -/
theorem Memory.read_writeRange (m : Memory) (a : Nat) (vs : List Byte) (c : Nat) :
    (m.writeRange a vs).read c = if c < a then m.read c else vs.getD (c - a) (m.read c) := by
  induction vs generalizing m a with
  | nil => simp [Memory.writeRange]
  | cons v vs ih =>
    simp only [Memory.writeRange, ih, Memory.read_write]
    rcases Nat.lt_trichotomy c a with h | h | h
    · rw [if_pos (by omega), if_neg (by omega), if_pos h]
    · subst h; simp
    · rw [if_neg (by omega), if_neg (by omega), if_neg (by omega)]
      obtain ⟨d, rfl⟩ : ∃ d, c = a + d + 1 := ⟨c - a - 1, by omega⟩
      rw [show a + d + 1 - (a + 1) = d by omega, show a + d + 1 - a = d + 1 by omega, List.getD_cons_succ]

/-! ## Resolved accesses (R71) -/

/-- Every one of `n` addresses from `a` on exists: the condition under which a run of accesses raises nothing. -/
def accessible (edge : MemEdge) (a n : Nat) : Prop := edge = .wrap ∨ a + n ≤ Config.memSize ∨ n = 0

theorem resolve_lt {edge : MemEdge} {a c : Nat} (h : resolve edge a = .ok c) : c < Config.memSize := by
  cases edge with
  | wrap => cases h; exact Nat.mod_lt _ (by decide)
  | fault =>
    simp only [resolve] at h
    split at h <;> cases h
    omega

/-- Where an access raises nothing it reaches the cell of the address modulo 4096. -/
theorem resolve_ok {edge : MemEdge} {a : Nat} (h : edge = .wrap ∨ a < Config.memSize) :
    resolve edge a = .ok (a % Config.memSize) := by
  cases edge with
  | wrap => rfl
  | fault =>
    have h : a < Config.memSize := by simpa using h
    simp [resolve, Nat.not_le.2 h, Nat.mod_eq_of_lt h]

theorem resolve_error {a : Nat} (h : Config.memSize ≤ a) : resolve .fault a = .error a := by
  simp [resolve, h]

/-- An access answers the cell of the address modulo 4096, or raises on the address itself. -/
theorem resolve_cases (edge : MemEdge) (a : Nat) :
    resolve edge a = .ok (a % Config.memSize) ∨
      (edge = .fault ∧ Config.memSize ≤ a ∧ resolve edge a = .error a) := by
  by_cases h : edge = .wrap ∨ a < Config.memSize
  · exact .inl (resolve_ok h)
  · have he : edge = .fault := by cases edge <;> simp_all
    have ha : Config.memSize ≤ a := by
      rcases Nat.lt_or_ge a Config.memSize with hlt | hge
      · exact absurd (.inr hlt) h
      · exact hge
    subst he
    exact .inr ⟨rfl, ha, resolve_error ha⟩

/-- All of `n` reads land: the bytes of the cells modulo 4096, in order. -/
theorem Memory.readBytes_ok {edge : MemEdge} {m : Memory} {a n : Nat} (h : accessible edge a n) :
    Memory.readBytes edge m a n = .ok ((List.range n).map fun k => m.read ((a + k) % Config.memSize)) := by
  induction n generalizing a with
  | zero => rfl
  | succ n ih =>
    have h1 : edge = .wrap ∨ a < Config.memSize := by rcases h with h | h | h <;> [exact .inl h; right; cases h]; omega
    have h2 : accessible edge (a + 1) n := by
      rcases h with h | h | h
      · exact .inl h
      · exact .inr (.inl (by omega))
      · cases h
    simp only [Memory.readBytes, Memory.readAt, resolve_ok h1, ih h2, List.range_succ_eq_map, List.map_cons,
      List.map_map, Nat.add_zero]
    congr 2
    apply List.map_congr_left
    intro k _
    simp only [Function.comp]
    rw [show a + 1 + k = a + k.succ by omega]

/-- Some of `n` reads is out of range: the first bad address. -/
theorem Memory.readBytes_error {edge : MemEdge} {m : Memory} {a n : Nat} (h : ¬ accessible edge a n) :
    Memory.readBytes edge m a n = .error (max a Config.memSize) := by
  induction n generalizing a with
  | zero => exact absurd (.inr (.inr rfl)) h
  | succ n ih =>
    simp only [accessible, not_or] at h
    simp only [Memory.readBytes, Memory.readAt]
    rcases resolve_cases edge a with hr | ⟨he, ha, hr⟩
    · have ha : a < Config.memSize := by
        rcases Nat.lt_or_ge a Config.memSize with hlt | hge
        · exact hlt
        · have : edge = .fault := by cases edge <;> simp_all
          subst this; simp [resolve_error hge] at hr
      have h2 : ¬ accessible edge (a + 1) n := by
        simp only [accessible, not_or]
        exact ⟨h.1, by omega, by omega⟩
      rw [hr, ih h2]
      simp only [Except.error.injEq]
      omega
    · rw [hr]
      simp only [Except.error.injEq]
      omega

/-- All of the writes land: the cells modulo 4096 hold the bytes, every other cell is as before, and the canonical form
stays. -/
theorem Memory.writeBytes_ok {edge : MemEdge} {m : Memory} {a : Nat} {vs : List Byte}
    (h : accessible edge a vs.length) (hlen : vs.length ≤ Config.memSize) :
    ∃ m', Memory.writeBytes edge m a vs = .ok m' ∧
      (∀ k (hk : k < vs.length), m'.read ((a + k) % Config.memSize) = vs[k]) ∧
      (∀ c, (∀ k, k < vs.length → c ≠ (a + k) % Config.memSize) → m'.read c = m.read c) ∧
      (m.wf = true → m'.wf = true) := by
  induction vs generalizing m a with
  | nil => exact ⟨m, rfl, by simp, fun _ _ => rfl, id⟩
  | cons v vs ih =>
    simp only [List.length_cons] at h hlen
    have h1 : edge = .wrap ∨ a < Config.memSize := by rcases h with h | h | h <;> [exact .inl h; right; cases h]; omega
    have h2 : accessible edge (a + 1) vs.length := by
      rcases h with h | h | h
      · exact .inl h
      · exact .inr (.inl (by omega))
      · cases h
    obtain ⟨m', hm', hin, hout, hwf⟩ := ih (m := m.write (a % Config.memSize) v) h2 (by omega)
    refine ⟨m', by simp only [Memory.writeBytes, Memory.writeAt, resolve_ok h1, hm'], ?_, ?_, ?_⟩
    · intro k hk
      cases k with
      | zero =>
        rw [Nat.add_zero, hout, Memory.read_write, if_pos rfl, List.getElem_cons_zero]
        intro k hk' heq
        simp only [Config.memSize] at heq hlen
        omega
      | succ k =>
        rw [show a + (k + 1) = a + 1 + k by omega, hin k (by simpa using hk), List.getElem_cons_succ]
    · intro c hc
      rw [hout, Memory.read_write, if_neg]
      · simpa using hc 0 (by simp)
      · intro k hk
        rw [show a + 1 + k = a + (k + 1) by omega]
        exact hc (k + 1) (by simpa using hk)
    · intro hw
      exact hwf (Memory.wf_write hw (Nat.mod_lt _ (by decide)))

/-- Some of the writes is out of range: the first bad address, and no memory. -/
theorem Memory.writeBytes_error {edge : MemEdge} {m : Memory} {a : Nat} {vs : List Byte}
    (h : ¬ accessible edge a vs.length) : Memory.writeBytes edge m a vs = .error (max a Config.memSize) := by
  induction vs generalizing m a with
  | nil => exact absurd (.inr (.inr rfl)) h
  | cons v vs ih =>
    simp only [accessible, not_or, List.length_cons] at h
    simp only [Memory.writeBytes, Memory.writeAt]
    rcases resolve_cases edge a with hr | ⟨he, ha, hr⟩
    · have ha : a < Config.memSize := by
        rcases Nat.lt_or_ge a Config.memSize with hlt | hge
        · exact hlt
        · have : edge = .fault := by cases edge <;> simp_all
          subst this; simp [resolve_error hge] at hr
      have h2 : ¬ accessible edge (a + 1) vs.length := by
        simp only [accessible, not_or]
        exact ⟨h.1, by omega, by omega⟩
      rw [hr]
      simp only
      rw [ih h2]
      simp only [Except.error.injEq]
      omega
    · rw [hr]
      simp only [Except.error.injEq]
      omega

/-- Whatever the writes answer with keeps the canonical form. -/
theorem Memory.wf_writeBytes {edge : MemEdge} {m m' : Memory} {a : Nat} {vs : List Byte} (h : m.wf = true)
    (hw : Memory.writeBytes edge m a vs = .ok m') : m'.wf = true := by
  induction vs generalizing m a with
  | nil => cases hw; exact h
  | cons v vs ih =>
    simp only [Memory.writeBytes, Memory.writeAt] at hw
    rcases resolve_cases edge a with hr | ⟨_, _, hr⟩
    · rw [hr] at hw
      exact ih (Memory.wf_write h (Nat.mod_lt _ (by decide))) hw
    · rw [hr] at hw; cases hw

/-- A cell that no access of the run resolves to is as before. -/
theorem Memory.read_writeBytes_other {edge : MemEdge} {m m' : Memory} {a : Nat} {vs : List Byte} {c : Nat}
    (hw : Memory.writeBytes edge m a vs = .ok m') (hc : ∀ k, k < vs.length → resolve edge (a + k) ≠ .ok c) :
    m'.read c = m.read c := by
  induction vs generalizing m a with
  | nil => cases hw; rfl
  | cons v vs ih =>
    simp only [Memory.writeBytes, Memory.writeAt] at hw
    rcases resolve_cases edge a with hr | ⟨_, _, hr⟩
    · rw [hr] at hw
      rw [ih hw fun k hk => by rw [show a + 1 + k = a + (k + 1) by omega]; exact hc (k + 1) (by simpa using hk),
        Memory.read_write, if_neg]
      rintro rfl
      exact hc 0 (by simp) (by simpa using hr)
    · rw [hr] at hw; cases hw

/-- The memory at construction is in canonical form. -/
theorem State.reset_mem_wf : State.reset.mem.wf = true := rfl

end Sys2Proof.Machine
end

