-- ==== Sys2Proof/Laws/Ops.lean ====
section
/-! SUPPORT. One lemma for each shared operation, saying once what it answers: the ends of a step, the stack, the
register ranges, memory through the state, fetch and decode. -/

namespace Sys2Proof.Machine

/-! ## How a step ends -/

theorem commit_eq (s : State) : commit s = .next { s with progress := .stepped .executed } := rfl

theorem block_eq (s : State) : block s = .next { s with progress := .stepped .blocked } := rfl

theorem raise_eq (e : ErrorRecord) (s : State) : raise e s = .next (s.halted e) := rfl

theorem raiseInsn_eq (k : ErrorKind) (i : Instr) (a : Option Nat) (s : State) :
    raiseInsn k i a s = .next (s.halted (insnError k i a s)) := rfl

theorem reportHalt_eq (e : ErrorRecord) (s : State) :
    reportHalt e s = .next { s with progress := .stepped (.err e) } := rfl

/-! ## The stack -/

/-- A push below sixteen entries lands at `SP`. -/
theorem State.push_some {s : State} {v : Word} {k : Fin 16} (h : s.sp = k.castSucc) :
    s.push v = some { s with stack := s.stack.set k v, sp := k.succ } := by
  have hk : s.sp.val = k.val := by rw [h]; rfl
  simp only [State.push, hk, k.isLt, dite_true]
  rfl

theorem State.push_none {s : State} {v : Word} (h : s.sp = 16) : s.push v = none := by
  simp [State.push, h]

/-- A push answers one of these two ways. -/
theorem State.push_cases (s : State) (v : Word) :
    (s.sp = 16 ∧ s.push v = none) ∨
      ∃ k : Fin 16, s.sp = k.castSucc ∧ s.push v = some { s with stack := s.stack.set k v, sp := k.succ } := by
  by_cases h : s.sp = 16
  · exact .inl ⟨h, State.push_none h⟩
  · have hlt : s.sp.val < 16 := by have := s.sp.isLt; simp only [Fin.ext_iff] at h; omega
    exact .inr ⟨⟨s.sp.val, hlt⟩, rfl, State.push_some rfl⟩

/-- A pop above zero entries answers the newest one. -/
theorem State.pop_some {s : State} {k : Fin 16} (h : s.sp = k.succ) :
    s.pop = some (s.stack[k], { s with sp := k.castSucc }) := by
  have hk : s.sp.val = k.val + 1 := by rw [h]; rfl
  simp only [State.pop, hk, Nat.zero_lt_succ, dite_true, Nat.add_sub_cancel]
  rfl

theorem State.pop_none {s : State} (h : s.sp = 0) : s.pop = none := by
  simp [State.pop, h]

/-- A pop answers one of these two ways. -/
theorem State.pop_cases (s : State) :
    (s.sp = 0 ∧ s.pop = none) ∨
      ∃ k : Fin 16, s.sp = k.succ ∧ s.pop = some (s.stack[k], { s with sp := k.castSucc }) := by
  by_cases h : s.sp = 0
  · exact .inl ⟨h, State.pop_none h⟩
  · obtain ⟨k, hk⟩ := Fin.exists_succ_eq.2 h
    exact .inr ⟨k, hk.symm, State.pop_some hk.symm⟩

/-! ## Register ranges -/

theorem State.length_regsUpTo (s : State) (x : RegIdx) : (s.regsUpTo x).length = x.val + 1 := by
  simp [State.regsUpTo]

theorem State.getElem_regsUpTo (s : State) (x : RegIdx) (k : Nat) (h : k < (s.regsUpTo x).length) :
    (s.regsUpTo x)[k] = s.getReg ⟨k, by have := s.length_regsUpTo x; omega⟩ := by
  simp [State.regsUpTo, State.getReg]

/-- Setting registers from number `k` on changes the register file alone. -/
theorem State.setRegsFrom_eq (s : State) (k : Nat) (bs : List Byte) :
    s.setRegsFrom k bs = { s with regs := (s.setRegsFrom k bs).regs } := by
  induction bs generalizing s k with
  | nil => rfl
  | cons b bs ih =>
    simp only [State.setRegsFrom]
    split
    · rw [ih]; rfl
    · rfl

/-- Register `k + j` becomes byte `j`; the others stay. -/
theorem State.getReg_setRegsFrom (s : State) (k : Nat) (bs : List Byte) (r : RegIdx) :
    (s.setRegsFrom k bs).getReg r = if r.val < k then s.getReg r else bs.getD (r.val - k) (s.getReg r) := by
  induction bs generalizing s k with
  | nil => simp [State.setRegsFrom]
  | cons b bs ih =>
    simp only [State.setRegsFrom]
    split
    · next h =>
      rw [ih, State.getReg_setReg]
      rcases Nat.lt_trichotomy r.val k with hr | hr | hr
      · rw [if_pos (by omega), if_neg (by simp only [Fin.ext_iff]; omega), if_pos hr]
      · rw [if_pos (by omega), if_pos (by simp only [Fin.ext_iff]; omega), if_neg (by omega), hr, Nat.sub_self]
        rfl
      · rw [if_neg (by omega), if_neg (by simp only [Fin.ext_iff]; omega), if_neg (by omega)]
        obtain ⟨d, hd⟩ : ∃ d, r.val = k + d + 1 := ⟨r.val - k - 1, by omega⟩
        rw [hd, show k + d + 1 - (k + 1) = d by omega, show k + d + 1 - k = d + 1 by omega, List.getD_cons_succ]
    · next h => rw [if_pos (by have := r.isLt; omega)]

/-! ## Memory through the state -/

theorem State.inRange_iff (s : State) (n : Nat) :
    s.inRange n ↔ accessible s.quirks.memEdge s.base n := Iff.rfl

theorem State.memReadBytes_ok {s : State} {n : Nat} (h : s.inRange n) :
    s.memReadBytes s.base n = .ok ((List.range n).map fun k => s.spriteByte k) :=
  Memory.readBytes_ok h

theorem State.memReadBytes_error {s : State} {n : Nat} (h : ¬ s.inRange n) :
    s.memReadBytes s.base n = .error s.firstBad :=
  Memory.readBytes_error h

theorem State.memWriteBytes_error {s : State} {vs : List Byte} (h : ¬ s.inRange vs.length) :
    s.memWriteBytes s.base vs = .error s.firstBad :=
  Memory.writeBytes_error h

/-- The byte an access at `a` reads, where it raises nothing. -/
theorem State.memRead_ok {s : State} {a : Nat} (h : s.quirks.memEdge = .wrap ∨ a < Config.memSize) :
    s.memRead a = .ok (s.mem.read (a % Config.memSize)) := by
  simp [State.memRead, Memory.readAt, resolve_ok h]

theorem State.memRead_error {s : State} {a : Nat} (h : s.quirks.memEdge = .fault) (ha : Config.memSize ≤ a) :
    s.memRead a = .error a := by
  simp [State.memRead, Memory.readAt, h, resolve_error ha]

/-! ## Fetch and decode -/

theorem State.fetchWord_ok {s : State} (h : s.quirks.memEdge = .wrap ∨ s.pc.toNat + 1 < Config.memSize) :
    s.fetchWord = .ok (s.mem.read (s.pc.toNat % Config.memSize) ++ s.mem.read ((s.pc.toNat + 1) % Config.memSize)) := by
  have h0 : s.quirks.memEdge = .wrap ∨ s.pc.toNat < Config.memSize := h.imp id (by omega)
  simp only [State.fetchWord, State.memRead_ok h0, State.memRead_ok h, wordOfBytes]

theorem State.fetchWord_error {s : State} (hf : s.quirks.memEdge = .fault) (h : Config.memSize ≤ s.pc.toNat + 1) :
    s.fetchWord = .error (max s.pc.toNat Config.memSize) := by
  simp only [State.fetchWord]
  rcases Nat.lt_or_ge s.pc.toNat Config.memSize with hlt | hge
  · rw [State.memRead_ok (.inr hlt), State.memRead_error hf h]
    simp only [Except.error.injEq]; omega
  · rw [State.memRead_error hf hge]
    simp only [Except.error.injEq]; omega

theorem State.fetchDecode_of_ok {s : State} {w : Word} {i : Instr} (hw : s.fetchWord = .ok w)
    (hi : decodeWord w = .ok i) : s.fetchDecode = .ok i := by
  simp [State.fetchDecode, hw, hi]

theorem State.fetchDecode_of_undecodable {s : State} {w : Word} {r : Undecodable} (hw : s.fetchWord = .ok w)
    (hr : decodeWord w = .error r) :
    s.fetchDecode = .error { kind := .invalidOpcode, pc := s.pc, word := some w, addr := none } := by
  simp [State.fetchDecode, hw, hr]

theorem State.fetchDecode_of_error {s : State} {a : Nat} (hw : s.fetchWord = .error a) :
    s.fetchDecode = .error { kind := .memoryOutOfBounds, pc := s.pc, word := none, addr := some a } := by
  simp [State.fetchDecode, hw]

/-! ## A step -/

theorem step_halted {s : State} {e : ErrorRecord} (h : s.status = .halted e) : step s = reportHalt e s := by
  simp [step, h, Status.err?]

theorem step_raise {s : State} {e : ErrorRecord} (h : s.status = .running) (hf : s.fetchDecode = .error e) :
    step s = raise e s := by
  simp [step, h, Status.err?, hf]

theorem step_exec {s : State} {i : Instr} (h : s.status = .running) (hf : s.fetchDecode = .ok i) :
    step s = exec i s := by
  simp [step, h, Status.err?, hf]

/-- A step does one of these three things. -/
theorem step_cases (s : State) :
    (∃ e, s.status = .halted e ∧ step s = reportHalt e s) ∨
      (∃ e, s.status = .running ∧ s.fetchDecode = .error e ∧ step s = raise e s) ∨
      ∃ i, s.status = .running ∧ s.fetchDecode = .ok i ∧ step s = exec i s := by
  cases hs : s.status with
  | halted e => exact .inl ⟨e, rfl, step_halted hs⟩
  | running =>
    cases hf : s.fetchDecode with
    | error e => exact .inr (.inl ⟨e, rfl, rfl, step_raise hs hf⟩)
    | ok i => exact .inr (.inr ⟨i, rfl, rfl, step_exec hs hf⟩)

/-- Every error that ends a step before its instruction runs has the fields R301 gives it and shows its cause. -/
theorem State.fetchDecode_error_shaped {s : State} {e : ErrorRecord} (h : s.fetchDecode = .error e) :
    e.shaped ∧ e.pc = s.pc ∧ s.showsCause e.kind := by
  simp only [State.fetchDecode] at h
  split at h
  · next bad hw =>
    cases h
    by_cases hok : s.quirks.memEdge = .wrap ∨ s.pc.toNat + 1 < Config.memSize
    · rw [State.fetchWord_ok hok] at hw; cases hw
    · have hf : s.quirks.memEdge = .fault := by
        cases hm : s.quirks.memEdge <;> simp_all
      have ha : Config.memSize ≤ s.pc.toNat + 1 := by
        rcases Nat.lt_or_ge (s.pc.toNat + 1) Config.memSize with hlt | hge
        · exact absurd (.inr hlt) hok
        · exact hge
      rw [State.fetchWord_error hf ha] at hw
      cases hw
      exact ⟨⟨_, rfl, by omega⟩, rfl, hf⟩
  · split at h <;> cases h
    exact ⟨⟨rfl, rfl⟩, rfl, trivial⟩

/-! ## Keys -/

theorem State.mem_pressedKeys {s : State} {k : KeyIdx} : k ∈ s.pressedKeys ↔ s.keys[k] = true := by
  rw [State.pressedKeys, List.mem_filter]
  exact ⟨fun h => h.2, fun h => ⟨List.mem_finRange k, h⟩⟩

/-- The wait finds no key exactly when none is pressed. -/
theorem State.pressedKeys_eq_nil {s : State} : s.pressedKeys = [] ↔ ∀ k : KeyIdx, s.keys[k] = false := by
  simp only [List.eq_nil_iff_forall_not_mem, State.mem_pressedKeys, Bool.not_eq_true]

/-- Whatever the free choice is, it is a member of the list it chooses from. -/
theorem chooseKey_mem (n : Nat) (k : KeyIdx) (ks : List KeyIdx) : chooseKey n k ks ∈ k :: ks := by
  have h : Config.keyChoice n % (ks.length + 1) < (k :: ks).length := Nat.mod_lt _ (Nat.succ_pos _)
  rw [chooseKey, List.getD_eq_getElem _ _ h]
  exact List.getElem_mem h

/-! ## Results and flags -/

/-- A write of a result and a flag changes the register file alone. -/
theorem State.writeResultAndFlag_eq (s : State) (x : RegIdx) (v f : Byte) :
    s.writeResultAndFlag x v f = { s with regs := (s.writeResultAndFlag x v f).regs } := by
  simp only [State.writeResultAndFlag]
  split <;> rfl

/-- What each register holds after a result and a flag were written (R170). -/
theorem State.getReg_writeResultAndFlag (s : State) (x : RegIdx) (v f : Byte) (r : RegIdx) :
    (s.writeResultAndFlag x v f).getReg r = doubleWrite s x v f r := by
  simp only [State.writeResultAndFlag, doubleWrite]
  split
  · next h =>
    simp only [State.getReg_setReg, h, Config.flagReg, implies_true, and_true]
  · next h =>
    simp only [State.getReg_setReg, h, Config.flagReg, reduceCtorEq, imp_false]
    by_cases h15 : r = 15
    · subst h15
      by_cases hx : x = 15 <;> simp [hx, eq_comm]
    · simp [h15]

theorem State.writeLogical_eq (s : State) (x : RegIdx) (v : Byte) :
    s.writeLogical x v = { s with regs := (s.writeLogical x v).regs } := by
  simp only [State.writeLogical]
  split
  · exact s.writeResultAndFlag_eq x v 0
  · rfl

theorem State.getReg_writeLogical_on {s : State} (h : s.quirks.vfReset = .on) (x : RegIdx) (v : Byte) (r : RegIdx) :
    (s.writeLogical x v).getReg r = doubleWrite s x v 0 r := by
  simp only [State.writeLogical, h, State.getReg_writeResultAndFlag]

theorem State.getReg_writeLogical_off {s : State} (h : s.quirks.vfReset = .off) (x : RegIdx) (v : Byte) (r : RegIdx) :
    (s.writeLogical x v).getReg r = if r = x then v else s.getReg r := by
  simp only [State.writeLogical, h, State.getReg_setReg]

end Sys2Proof.Machine
end

