-- ==== Sys2Proof/Laws/Exec.lean ====
section
/-! SUPPORT. What executing one instruction can answer, said once: it commits, it blocks, or it raises. -/

namespace Sys2Proof.Machine

/-- An instruction raises an error of kind `k` with the address `a` only so (R300, R305). -/
def Raises (k : ErrorKind) (a : Option Nat) (i : Instr) (s : State) : Prop :=
  (k = .invalidOpcode ∧ a = none ∧ ∃ nnn, i = .sys nnn) ∨
  (k = .memoryOutOfBounds ∧ s.quirks.memEdge = .fault ∧ a = some s.firstBad ∧
    ((∃ x y n, i = .drw x y n) ∨ (∃ x, i = .ldBVx x) ∨ (∃ x, i = .ldMemVx x) ∨ (∃ x, i = .ldVxMem x))) ∨
  (k = .stackOverflow ∧ s.sp = 16 ∧ a = none ∧ ∃ nnn, i = .call nnn) ∨
  (k = .stackUnderflow ∧ s.sp = 0 ∧ a = none ∧ i = .ret)

/-- A committed state keeps what no instruction writes, and the canonical form of memory. -/
structure Committed (s s' : State) : Prop where
  status : s'.status = s.status
  quirks : s'.quirks = s.quirks
  keys : s'.keys = s.keys
  mem : s.mem.wf = true → s'.mem.wf = true

theorem fault_of_not_inRange {s : State} {n : Nat} (h : ¬ s.inRange n) : s.quirks.memEdge = .fault := by
  cases hm : s.quirks.memEdge with
  | wrap => exact absurd (.inl hm) h
  | fault => rfl

/-- A read-modify answer over memory reads: it commits, or raises where an address is out of range. -/
theorem State.memReadBytes_cases (s : State) (n : Nat) :
    (s.inRange n ∧ s.memReadBytes s.base n = .ok ((List.range n).map fun k => s.spriteByte k)) ∨
      (¬ s.inRange n ∧ s.quirks.memEdge = .fault ∧ s.memReadBytes s.base n = .error s.firstBad) := by
  by_cases h : s.inRange n
  · exact .inl ⟨h, State.memReadBytes_ok h⟩
  · exact .inr ⟨h, fault_of_not_inRange h, State.memReadBytes_error h⟩

/-- The answer of the byte writes of an instruction: some memory in canonical form, or the first bad address. -/
theorem State.memWriteBytes_cases (s : State) (vs : List Byte) (hlen : vs.length ≤ Config.memSize) :
    (s.inRange vs.length ∧ ∃ m, s.memWriteBytes s.base vs = .ok m ∧ (s.mem.wf = true → m.wf = true) ∧
        (∀ k (hk : k < vs.length), m.read ((s.index.toNat + k) % Config.memSize) = vs[k]) ∧
        (∀ c, ¬ s.accessedCells vs.length c → m.read c = s.mem.read c)) ∨
      (¬ s.inRange vs.length ∧ s.quirks.memEdge = .fault ∧ s.memWriteBytes s.base vs = .error s.firstBad) := by
  by_cases h : s.inRange vs.length
  · obtain ⟨m, hm, hin, _, hwf⟩ := Memory.writeBytes_ok (m := s.mem) h hlen
    refine .inl ⟨h, m, hm, hwf, hin, fun c hc => Memory.read_writeBytes_other hm fun k hk hr => ?_⟩
    exact hc ⟨k, hk, hr⟩
  · exact .inr ⟨h, fault_of_not_inRange h, State.memWriteBytes_error h⟩

theorem length_bcdDigits (v : Byte) : (bcdDigits v).length = 3 := rfl

/-- After a store that raises nothing, every cell holds the byte stored to it, or what it held before. -/
theorem State.memWriteBytes_holds {s : State} {vs : List Byte} {m : Memory} (hlen : vs.length ≤ Config.memSize)
    (hm : s.memWriteBytes s.base vs = .ok m) (a : Nat) : s.holdsAfterStore vs a (m.read a) := by
  rcases s.memWriteBytes_cases vs hlen with ⟨hr, m', hm', _, hin, hout⟩ | ⟨_, _, he⟩
  · cases hm.symm.trans hm'
    refine ⟨fun k hk ha => by rw [ha]; exact hin k hk, fun hno => hout a ?_⟩
    rintro ⟨k, hk, hres⟩
    have hok : s.quirks.memEdge = .wrap ∨ s.base + k < Config.memSize := by
      rcases hr with h | h | h
      · exact .inl h
      · exact .inr (by simp only [State.base, Config.memSize]; omega)
      · omega
    rw [resolve_ok hok] at hres
    cases hres
    exact hno k hk rfl
  · cases hm.symm.trans he

/-- Executing an instruction commits, blocks or raises. -/
theorem exec_cases (i : Instr) (s : State) :
    (∃ s', exec i s = commit s' ∧ Committed s s') ∨
      (exec i s = block s ∧ ∃ x, i = .ldVxK x ∧ s.pressedKeys = []) ∨
      ∃ k a, exec i s = raiseInsn k i a s ∧ Raises k a i s := by
  have reg : ∀ {s' : State}, s'.status = s.status → s'.quirks = s.quirks → s'.keys = s.keys → s'.mem = s.mem →
      Committed s s' := fun h1 h2 h3 h4 => ⟨h1, h2, h3, fun h => by rw [h4]; exact h⟩
  cases i with
  | sys nnn => exact .inr (.inr ⟨_, _, rfl, .inl ⟨rfl, rfl, nnn, rfl⟩⟩)
  | ret =>
    simp only [exec, execRet]
    rcases s.advance.pop_cases with ⟨h0, hp⟩ | ⟨k, _, hp⟩ <;> rw [hp]
    · exact .inr (.inr ⟨_, _, rfl, .inr (.inr (.inr ⟨rfl, h0, rfl, rfl⟩))⟩)
    · exact .inl ⟨_, rfl, reg rfl rfl rfl rfl⟩
  | call nnn =>
    simp only [exec, execCall]
    rcases s.advance.push_cases s.advance.pc with ⟨h16, hp⟩ | ⟨k, _, hp⟩ <;> rw [hp]
    · exact .inr (.inr ⟨_, _, rfl, .inr (.inr (.inl ⟨rfl, h16, rfl, nnn, rfl⟩))⟩)
    · exact .inl ⟨_, rfl, reg rfl rfl rfl rfl⟩
  | ldVxK x =>
    simp only [exec, execLdVxK]
    split
    · next h => exact .inr (.inl ⟨rfl, x, rfl, h⟩)
    · exact .inl ⟨_, rfl, reg rfl rfl rfl rfl⟩
  | drw x y n =>
    simp only [exec, execDrw]
    rcases s.memReadBytes_cases n.toNat with ⟨_, h⟩ | ⟨_, hf, h⟩ <;> rw [h]
    · exact .inl ⟨_, rfl, reg rfl rfl rfl rfl⟩
    · exact .inr (.inr ⟨_, _, rfl, .inr (.inl ⟨rfl, hf, rfl, .inl ⟨x, y, n, rfl⟩⟩)⟩)
  | ldBVx x =>
    simp only [exec, execLdBVx]
    rcases s.memWriteBytes_cases (bcdDigits (s.getReg x)) (by simp [length_bcdDigits, Config.memSize])
      with ⟨_, m, h, hwf, _⟩ | ⟨_, hf, h⟩ <;> rw [h]
    · exact .inl ⟨_, rfl, rfl, rfl, rfl, hwf⟩
    · exact .inr (.inr ⟨_, _, rfl, .inr (.inl ⟨rfl, hf, rfl, .inr (.inl ⟨x, rfl⟩)⟩)⟩)
  | ldMemVx x =>
    simp only [exec, execLdMemVx]
    rcases s.memWriteBytes_cases (s.regsUpTo x) (by rw [s.length_regsUpTo]; have := x.isLt; simp [Config.memSize]; omega)
      with ⟨_, m, h, hwf, _⟩ | ⟨_, hf, h⟩ <;> rw [h]
    · exact .inl ⟨_, rfl, rfl, rfl, rfl, hwf⟩
    · exact .inr (.inr ⟨_, _, rfl, .inr (.inl ⟨rfl, hf, rfl, .inr (.inr (.inl ⟨x, rfl⟩))⟩)⟩)
  | ldVxMem x =>
    simp only [exec, execLdVxMem]
    rcases s.memReadBytes_cases (x.val + 1) with ⟨_, h⟩ | ⟨_, hf, h⟩ <;> rw [h]
    · refine .inl ⟨_, rfl, ?_⟩
      rw [State.setRegsFrom_eq]
      exact reg rfl rfl rfl rfl
    · exact .inr (.inr ⟨_, _, rfl, .inr (.inl ⟨rfl, hf, rfl, .inr (.inr (.inr ⟨x, rfl⟩))⟩)⟩)
  | orReg x y | andReg x y | xorReg x y =>
    refine .inl ⟨_, rfl, ?_⟩
    rw [State.writeLogical_eq]
    exact reg rfl rfl rfl rfl
  | addReg x y | subReg x y | shr x y | subn x y | shl x y =>
    refine .inl ⟨_, rfl, ?_⟩
    rw [State.writeResultAndFlag_eq]
    exact reg rfl rfl rfl rfl
  | seImm x nn | sneImm x nn | seReg x y | sneReg x y | skp x | sknp x =>
    exact .inl ⟨_, rfl, reg (by simp) (by simp) (by simp) (by simp)⟩
  | cls | jp nnn | ldImm x nn | addImm x nn | ldReg x y | ldI nnn | jpV0 nnn | rnd x nn | ldVxDt x | ldDtVx x
  | ldStVx x | addIVx x | ldFVx x => exact .inl ⟨_, rfl, reg rfl rfl rfl rfl⟩

/-- Every instruction answers a next state, in every state. -/
theorem exec_answers (i : Instr) (s : State) : ∃ t, exec i s = .next t := by
  rcases exec_cases i s with ⟨s', h, _⟩ | ⟨h, _⟩ | ⟨k, a, h, _⟩ <;> exact ⟨_, h⟩

/-- So does every step. -/
theorem step_answers (s : State) : ∃ t, step s = .next t := by
  rcases step_cases s with ⟨e, _, h⟩ | ⟨e, _, _, h⟩ | ⟨i, _, _, h⟩
  · exact ⟨_, h⟩
  · exact ⟨_, h⟩
  · rw [h]; exact exec_answers i s

/-- The record an instruction raises has the fields R301 gives it and shows its cause. -/
theorem Raises.shaped {k : ErrorKind} {a : Option Nat} {i : Instr} {s : State} (h : Raises k a i s) :
    (insnError k i a s).shaped ∧ s.showsCause k := by
  rcases h with ⟨rfl, rfl, _⟩ | ⟨rfl, hf, rfl, _⟩ | ⟨rfl, h16, rfl, _⟩ | ⟨rfl, h0, rfl, rfl⟩
  · exact ⟨⟨rfl, rfl⟩, trivial⟩
  · exact ⟨⟨_, rfl, by simp [State.firstBad, Config.memSize]⟩, hf⟩
  · exact ⟨⟨rfl, rfl⟩, h16⟩
  · exact ⟨⟨rfl, rfl⟩, h0⟩

end Sys2Proof.Machine
end

