-- ==== Sys2Proof/Laws/Commands.lean ====
section
/-! SUPPORT. The host's commands: what each answers, and the induction over a run of them, packaged once. -/

namespace Sys2Proof.Machine

/-- One tick of one timer: down by one, never below 0 (R310). -/
theorem toNat_tickByte (b : Byte) : (tickByte b).toNat = b.toNat - 1 := by
  unfold tickByte
  split
  · next h => subst h; rfl
  · next h =>
    have : b.toNat ≠ 0 := fun h0 => h (BitVec.eq_of_toNat_eq h0)
    bv_omega

/-- `set_key_state` answers one of these two ways (R313). -/
theorem setKeyState_cases (k : Nat) (p : Bool) (s : State) :
    (∃ h : k < 16, setKeyState k p s = .next { s with keys := s.keys.set k p h }) ∨
      (16 ≤ k ∧ setKeyState k p s = .refused (.keyIndexOutOfRange k)) := by
  by_cases h : k < 16
  · exact .inl ⟨h, by simp only [setKeyState, h, dite_true]⟩
  · exact .inr ⟨by omega, by simp only [setKeyState, h, dite_false]⟩

/-- `load` answers one of these three ways (R80, R352). -/
theorem load_cases (bytes : List Byte) (s : State) :
    (s.progress = .constructed ∧ bytes.length ≤ 3584 ∧ load bytes s =
        .next ((s.setMem (s.mem.writeRange Config.loadOffset bytes)).setProgress .loaded)) ∨
      (s.progress = .constructed ∧ 3584 < bytes.length ∧ load bytes s =
        .next ((s.setStatus (.halted romTooLarge)).setProgress .loaded)) ∨
      (s.progress ≠ .constructed ∧ load bytes s = .refused .loadOutOfOrder) := by
  have hmax : Config.maxRom = 3584 := rfl
  cases hp : s.progress with
  | constructed =>
    by_cases h : 3584 < bytes.length
    · exact .inr (.inl ⟨rfl, h, by simp only [load, hp, hmax, h, if_true]⟩)
    · exact .inl ⟨rfl, by omega, by simp only [load, hp, hmax, h, if_false]⟩
  | loaded => exact .inr (.inr ⟨by simp, by simp only [load, hp]⟩)
  | stepped r => exact .inr (.inr ⟨by simp, by simp only [load, hp]⟩)

/-- What holds before a run of commands and is kept by each command holds after the run (R361). -/
theorem runCommands_induct (P : State → Prop)
    (hstep : ∀ c s t, P s → applyCommand c s = .next t → P t) :
    ∀ (cs : List Command) (s t : State), P s → runCommands cs s = .next t → P t := by
  intro cs
  induction cs with
  | nil => intro s t hs h; cases h; exact hs
  | cons c cs ih =>
    intro s t hs h
    simp only [runCommands] at h
    split at h
    · next u hu => exact ih u t (hstep c s u hs hu) h
    · cases h
    · cases h

end Sys2Proof.Machine
end

