-- ==== Sys2Proof/Laws/Decode.lean ====
section
/-! SUPPORT. Every field read back from every encoding format, and every word put together again from its fields (R101),
for the statements about decoding. -/

namespace Sys2Proof

/-! ## Fields of an encoded word -/

/-- The high part of an append. -/
theorem extract_append_high {m n : Nat} (a : BitVec m) (b : BitVec n) : (a ++ b).extractLsb' n m = a := by
  ext i hi
  simp [BitVec.getLsbD_append, BitVec.getLsbD_eq_getElem hi]

/-- The low part of an append. -/
theorem extract_append_low {m n : Nat} (a : BitVec m) (b : BitVec n) : (a ++ b).extractLsb' 0 n = b := by
  ext i hi
  simp [BitVec.getLsbD_append, hi]

/-- A field inside the high part of an append. -/
theorem extract_append_of_le {m n k l : Nat} (a : BitVec m) (b : BitVec n) :
    (a ++ b).extractLsb' (n + k) l = a.extractLsb' k l := by
  ext i hi
  simp [BitVec.getLsbD_append, Nat.add_assoc]

/-- A field inside the low part of an append. -/
theorem extract_append_of_lt {m n k l : Nat} (a : BitVec m) (b : BitVec n) (h : k + l ≤ n) :
    (a ++ b).extractLsb' k l = b.extractLsb' k l := by
  ext i hi
  simp [BitVec.getLsbD_append, show k + i < n by omega]

@[simp] theorem opField_encNNN (op : Nibble) (nnn : Imm12) : opField (encNNN op nnn) = op := extract_append_high op nnn

@[simp] theorem nnnField_encNNN (op : Nibble) (nnn : Imm12) : nnnField (encNNN op nnn) = nnn := extract_append_low op nnn

@[simp] theorem opField_encXNN (op : Nibble) (x : RegIdx) (nn : Byte) : opField (encXNN op x nn) = op :=
  (extract_append_of_le (k := 4) (l := 4) (op ++ regBits x) nn).trans (extract_append_high op (regBits x))

@[simp] theorem xField_encXNN (op : Nibble) (x : RegIdx) (nn : Byte) : xField (encXNN op x nn) = x :=
  congrArg BitVec.toFin ((extract_append_of_le (k := 0) (l := 4) (op ++ regBits x) nn).trans
    (extract_append_low op (regBits x)))

@[simp] theorem nnField_encXNN (op : Nibble) (x : RegIdx) (nn : Byte) : nnField (encXNN op x nn) = nn :=
  extract_append_low (op ++ regBits x) nn

@[simp] theorem opField_encXYN (op : Nibble) (x y : RegIdx) (n : Nibble) : opField (encXYN op x y n) = op :=
  (extract_append_of_le (k := 8) (l := 4) (op ++ regBits x ++ regBits y) n).trans
    ((extract_append_of_le (k := 4) (l := 4) (op ++ regBits x) (regBits y)).trans (extract_append_high op (regBits x)))

@[simp] theorem xField_encXYN (op : Nibble) (x y : RegIdx) (n : Nibble) : xField (encXYN op x y n) = x :=
  congrArg BitVec.toFin ((extract_append_of_le (k := 4) (l := 4) (op ++ regBits x ++ regBits y) n).trans
    ((extract_append_of_le (k := 0) (l := 4) (op ++ regBits x) (regBits y)).trans (extract_append_low op (regBits x))))

@[simp] theorem yField_encXYN (op : Nibble) (x y : RegIdx) (n : Nibble) : yField (encXYN op x y n) = y :=
  congrArg BitVec.toFin ((extract_append_of_le (k := 0) (l := 4) (op ++ regBits x ++ regBits y) n).trans
    (extract_append_low (op ++ regBits x) (regBits y)))

@[simp] theorem nField_encXYN (op : Nibble) (x y : RegIdx) (n : Nibble) : nField (encXYN op x y n) = n :=
  extract_append_low (op ++ regBits x ++ regBits y) n

/-! ## A word put together from its fields -/

theorem regBits_toFin (b : Nibble) : regBits b.toFin = b := rfl

theorem encNNN_fields (w : Word) : encNNN (opField w) (nnnField w) = w := by
  simp only [encNNN, opField, nnnField]
  ext i hi
  simp only [BitVec.getElem_append, BitVec.getElem_extractLsb']
  split <;> rw [← BitVec.getLsbD_eq_getElem hi] <;> congr 1 <;> omega

theorem encXNN_fields (w : Word) : encXNN (opField w) (xField w) (nnField w) = w := by
  simp only [encXNN, opField, xField, nnField, regBits_toFin]
  ext i hi
  simp only [BitVec.getElem_append, BitVec.getElem_extractLsb']
  repeat' split
  all_goals rw [← BitVec.getLsbD_eq_getElem hi]; congr 1; omega

theorem encXYN_fields (w : Word) : encXYN (opField w) (xField w) (yField w) (nField w) = w := by
  simp only [encXYN, opField, xField, yField, nField, regBits_toFin]
  ext i hi
  simp only [BitVec.getElem_append, BitVec.getElem_extractLsb']
  repeat' split
  all_goals rw [← BitVec.getLsbD_eq_getElem hi]; congr 1; omega

/-! ## The formats under the masks of R104 -/

theorem and_ones4 (a : Nibble) : a &&& 0xF#4 = a := BitVec.and_allOnes

theorem and_ones8 (a : Byte) : a &&& 0xFF#8 = a := BitVec.and_allOnes

theorem encNNN_and_op (op : Nibble) (nnn : Imm12) : encNNN op nnn &&& 0xF000#16 = op ++ 0x000#12 := by
  rw [show (0xF000#16 : Word) = 0xF#4 ++ 0x000#12 from rfl, encNNN, BitVec.and_append]
  simp only [and_ones4, BitVec.and_zero]

theorem encXNN_and_op (op : Nibble) (x : RegIdx) (nn : Byte) :
    encXNN op x nn &&& 0xF000#16 = op ++ 0x0#4 ++ 0x00#8 := by
  rw [show (0xF000#16 : Word) = 0xF#4 ++ 0x0#4 ++ 0x00#8 from rfl, encXNN, BitVec.and_append, BitVec.and_append]
  simp only [and_ones4, BitVec.and_zero]

theorem encXNN_and_op_nn (op : Nibble) (x : RegIdx) (nn : Byte) :
    encXNN op x nn &&& 0xF0FF#16 = op ++ 0x0#4 ++ nn := by
  rw [show (0xF0FF#16 : Word) = 0xF#4 ++ 0x0#4 ++ 0xFF#8 from rfl, encXNN, BitVec.and_append, BitVec.and_append]
  simp only [and_ones4, and_ones8, BitVec.and_zero]

theorem encXYN_and_op (op : Nibble) (x y : RegIdx) (n : Nibble) :
    encXYN op x y n &&& 0xF000#16 = op ++ 0x0#4 ++ 0x0#4 ++ 0x0#4 := by
  rw [show (0xF000#16 : Word) = 0xF#4 ++ 0x0#4 ++ 0x0#4 ++ 0x0#4 from rfl, encXYN, BitVec.and_append,
    BitVec.and_append, BitVec.and_append]
  simp only [and_ones4, BitVec.and_zero]

theorem encXYN_and_op_n (op : Nibble) (x y : RegIdx) (n : Nibble) :
    encXYN op x y n &&& 0xF00F#16 = op ++ 0x0#4 ++ 0x0#4 ++ n := by
  rw [show (0xF00F#16 : Word) = 0xF#4 ++ 0x0#4 ++ 0x0#4 ++ 0xF#4 from rfl, encXYN, BitVec.and_append,
    BitVec.and_append, BitVec.and_append]
  simp only [and_ones4, BitVec.and_zero]

/-! ## What a mask of R104 tests -/

/-- The three masks but `0xFFFF`, as fields: `0xF000` tests `op`. -/
theorem and_F000_eq_iff (w : Word) (op : Nibble) : w &&& 0xF000#16 = op ++ 0x000#12 ↔ opField w = op := by
  have h := encNNN_and_op (opField w) (nnnField w)
  rw [encNNN_fields] at h
  rw [h]
  exact ⟨fun e => by simpa using congrArg opField (show encNNN (opField w) 0 = encNNN op 0 from e), fun e => by rw [e]⟩

/-- `0xF00F` tests `op` and N. -/
theorem and_F00F_eq_iff (w : Word) (op n : Nibble) :
    w &&& 0xF00F#16 = op ++ 0x0#4 ++ 0x0#4 ++ n ↔ opField w = op ∧ nField w = n := by
  have h := encXYN_and_op_n (opField w) (xField w) (yField w) (nField w)
  rw [encXYN_fields] at h
  rw [h]
  refine ⟨fun e => ?_, fun e => by rw [e.1, e.2]⟩
  have e : encXYN (opField w) 0 0 (nField w) = encXYN op 0 0 n := e
  exact ⟨by simpa using congrArg opField e, by simpa using congrArg nField e⟩

/-- `0xF0FF` tests `op` and NN. -/
theorem and_F0FF_eq_iff (w : Word) (op : Nibble) (nn : Byte) :
    w &&& 0xF0FF#16 = op ++ 0x0#4 ++ nn ↔ opField w = op ∧ nnField w = nn := by
  have h := encXNN_and_op_nn (opField w) (xField w) (nnField w)
  rw [encXNN_fields] at h
  rw [h]
  refine ⟨fun e => ?_, fun e => by rw [e.1, e.2]⟩
  have e : encXNN (opField w) 0 (nnField w) = encXNN op 0 nn := e
  exact ⟨by simpa using congrArg opField e, by simpa using congrArg nnField e⟩

/-- `0xFFFF` tests the whole word. -/
theorem and_FFFF_eq_iff (w v : Word) : w &&& 0xFFFF#16 = v ↔ w = v := by
  rw [show (0xFFFF#16 : Word) = BitVec.allOnes 16 from rfl, BitVec.and_allOnes]

/-- The first matching row, with the head row's test said by fields. -/
theorem firstRow_cons (rows : List OpcodeRow) (m p : Word) (f : Word → Instr) (w : Word) (c : Prop) [Decidable c]
    (hc : w &&& m = p ↔ c) :
    ((⟨m, p, f⟩ :: rows).find? (OpcodeRow.accepts · w)).map (OpcodeRow.form · w) =
      if c then some (f w) else (rows.find? (OpcodeRow.accepts · w)).map (OpcodeRow.form · w) := by
  by_cases h : c
  · rw [List.find?_cons_of_pos (by simpa [OpcodeRow.accepts] using hc.2 h), if_pos h]; rfl
  · rw [List.find?_cons_of_neg (by simpa [OpcodeRow.accepts] using fun q => h (hc.1 q)), if_neg h]

/-- A nibble is one of sixteen. -/
theorem nibble_cases (a : Nibble) :
    a = 0x0 ∨ a = 0x1 ∨ a = 0x2 ∨ a = 0x3 ∨ a = 0x4 ∨ a = 0x5 ∨ a = 0x6 ∨ a = 0x7 ∨
    a = 0x8 ∨ a = 0x9 ∨ a = 0xA ∨ a = 0xB ∨ a = 0xC ∨ a = 0xD ∨ a = 0xE ∨ a = 0xF := by
  revert a; decide

/-! ## A word written out from the spec is the encoder's -/

theorem nibbleOf_eq (r : RegIdx) : Machine.nibbleOf r = regBits r := by
  apply BitVec.eq_of_toNat_eq
  simp [Machine.nibbleOf, regBits]

theorem word_eq_encXNN (op : Nibble) (x : RegIdx) (nn : Byte) : (op ++ Machine.nibbleOf x ++ nn : Word) = encXNN op x nn := by
  rw [nibbleOf_eq]; rfl

theorem word_eq_encXYN (op n : Nibble) (x y : RegIdx) :
    (op ++ Machine.nibbleOf x ++ Machine.nibbleOf y ++ n : Word) = encXYN op x y n := by
  rw [nibbleOf_eq, nibbleOf_eq]; rfl

/-! ## Bytes -/

/-- The two bytes of a word, put together, are the word (R76). -/
theorem wordOfBytes_bytesOfWord (w : Word) : wordOfBytes (w.extractLsb' 8 8) (w.extractLsb' 0 8) = w := by
  simp only [wordOfBytes]
  ext i hi
  simp only [BitVec.getElem_append, BitVec.getElem_extractLsb']
  split <;> rw [← BitVec.getLsbD_eq_getElem hi] <;> congr 1 <;> omega

/-- Decoding a word's two bytes is decoding the word, and leaves the rest of the stream. -/
theorem decodeBytes_bytesOfWord (w : Word) (rest : List Byte) :
    decodeBytes (bytesOfWord w ++ rest) = (decodeWord w).map fun i => (i, rest) := by
  simp only [bytesOfWord, List.cons_append, List.nil_append, decodeBytes, wordOfBytes_bytesOfWord]
  cases decodeWord w <;> rfl

end Sys2Proof
end

