-- ==== Sys2Proof/Laws/Display.lean ====
section
/-! SUPPORT. The frame-buffer unit: which cells a sprite lights, that it lights none twice, and what XORing a list of
cells does to a frame buffer (R241, R242). -/

namespace Sys2Proof.Machine

/-! ## Pixels -/

theorem pixel_setPixel (f : FrameBuffer) (p q : Column × Row) (b : Bool) :
    pixel (setPixel f p b) q = if q = p then b else pixel f q := by
  obtain ⟨pc, pr⟩ := p
  obtain ⟨qc, qr⟩ := q
  simp only [pixel, setPixel, Fin.getElem_fin, Vector.getElem_set, Prod.mk.injEq, Fin.ext_iff]
  by_cases hc : pc.val = qc.val
  · have : pc = qc := Fin.ext hc
    subst this
    by_cases hr : pr.val = qr.val
    · simp [hr]
    · simp [hr, Ne.symm hr]
  · simp [hc, Ne.symm hc]

/-- Two frame buffers with the same pixels are the same. -/
theorem FrameBuffer.ext {f g : FrameBuffer} (h : ∀ p : Column × Row, pixel f p = pixel g p) : f = g := by
  apply Vector.ext
  intro c hc
  apply Vector.ext
  intro r hr
  exact h (⟨c, hc⟩, ⟨r, hr⟩)

theorem pixel_blankScreen (p : Column × Row) : pixel blankScreen p = false := by
  simp [pixel, blankScreen]

/-- XORing cells that are pairwise different flips exactly those cells, and the flag adds whether one was on. -/
theorem xorCells_spec (f : FrameBuffer) (hit : Bool) (ps : List (Column × Row)) (h : ps.Nodup) :
    (∀ q, pixel (xorCells f hit ps).1 q = if q ∈ ps then !pixel f q else pixel f q) ∧
      ((xorCells f hit ps).2 = true ↔ hit = true ∨ ∃ q ∈ ps, pixel f q = true) := by
  induction ps generalizing f hit with
  | nil => simp [xorCells]
  | cons p ps ih =>
    obtain ⟨hp, hps⟩ := List.nodup_cons.1 h
    obtain ⟨h1, h2⟩ := ih (setPixel f p (!pixel f p)) (hit || pixel f p) hps
    simp only [xorCells]
    constructor
    · intro q
      rw [h1, pixel_setPixel]
      by_cases hq : q = p
      · subst hq; simp [hp]
      · simp [hq]
    · rw [h2, Bool.or_eq_true, or_assoc]
      refine or_congr_right ?_
      simp only [List.mem_cons, exists_eq_or_imp]
      refine or_congr_right (exists_congr fun q => and_congr_right fun hq => ?_)
      rw [pixel_setPixel, if_neg (fun (he : q = p) => hp (he ▸ hq))]

/-! ## The cells of a sprite -/

theorem place_eq_some {edge : DrawEdge} {px py : Nat} {c : Column} {r : Row} :
    place edge px py = some (c, r) ↔ lands edge px py c r := by
  cases edge with
  | wrap => simp [place, lands, Fin.ofNat, Fin.ext_iff]
  | clip =>
    simp only [place, lands]
    split
    · simp [Fin.ext_iff]
    · next h => simp only [reduceCtorEq, false_iff]; have := c.isLt; have := r.isLt; omega

theorem mem_rowCells {edge : DrawEdge} {cx y : Nat} {b : Byte} {c : Column} {r : Row} :
    (c, r) ∈ rowCells edge cx y b ↔ ∃ j, j < 8 ∧ b.getLsbD (7 - j) = true ∧ lands edge (cx + j) y c r := by
  simp only [rowCells, List.mem_filterMap, Option.ite_none_right_eq_some, place_eq_some]
  constructor
  · rintro ⟨j, hj, hb, hl⟩
    exact ⟨j, by simp at hj; omega, hb, hl⟩
  · rintro ⟨j, hj, hb, hl⟩
    exact ⟨j, by simp; omega, hb, hl⟩

theorem mem_spriteCells {edge : DrawEdge} {cx cy : Nat} {bs : List Byte} {c : Column} {r : Row} :
    (c, r) ∈ spriteCells edge cx cy bs ↔
      ∃ k j, ∃ _ : k < bs.length, j < 8 ∧ bs[k].getLsbD (7 - j) = true ∧ lands edge (cx + j) (cy + k) c r := by
  induction bs generalizing cy with
  | nil => simp [spriteCells]
  | cons b bs ih =>
    simp only [spriteCells, List.mem_append, mem_rowCells, ih]
    constructor
    · rintro (⟨j, hj, hb, hl⟩ | ⟨k, j, hk, hj, hb, hl⟩)
      · exact ⟨0, j, by simp, hj, hb, hl⟩
      · exact ⟨k + 1, j, by simpa using hk, hj, by simpa using hb, by rwa [show cy + (k + 1) = cy + 1 + k by omega]⟩
    · rintro ⟨k, j, hk, hj, hb, hl⟩
      cases k with
      | zero => exact .inl ⟨j, hj, hb, hl⟩
      | succ k =>
        exact .inr ⟨k, j, by simpa using hk, hj, by simpa using hb, by rwa [show cy + 1 + k = cy + (k + 1) by omega]⟩

/-- One sprite row lights no cell twice: it is 8 wide on a grid of 64 columns. -/
theorem nodup_rowCells (edge : DrawEdge) (cx y : Nat) (b : Byte) : (rowCells edge cx y b).Nodup := by
  have offsets : List.Pairwise (fun i j : Nat => i < 8 ∧ j < 8 ∧ i ≠ j) [0, 1, 2, 3, 4, 5, 6, 7] := by decide
  refine offsets.filterMap _ fun i j hij p hp q hq heq => ?_
  obtain ⟨c, r⟩ := p
  subst heq
  simp only [Option.ite_none_right_eq_some, place_eq_some] at hp hq
  cases edge <;> simp only [lands] at hp hq <;> omega

/-- Two rows of a sprite at most 32 tall share no cell. -/
theorem disjoint_rows {edge : DrawEdge} {cx cy : Nat} {b : Byte} {bs : List Byte} (h : bs.length < 32)
    {p : Column × Row} (hp : p ∈ rowCells edge cx cy b) : p ∉ spriteCells edge cx (cy + 1) bs := by
  obtain ⟨c, r⟩ := p
  rw [mem_spriteCells]
  rintro ⟨k, j, hk, _, _, hl⟩
  obtain ⟨i, _, _, hl'⟩ := mem_rowCells.1 hp
  cases edge <;> simp only [lands] at hl hl' <;> omega

/-- A sprite lights no cell twice (R241, derived there from R242). -/
theorem nodup_spriteCells (edge : DrawEdge) (cx cy : Nat) (bs : List Byte) (h : bs.length ≤ 32) :
    (spriteCells edge cx cy bs).Nodup := by
  induction bs generalizing cy with
  | nil => exact List.nodup_nil
  | cons b bs ih =>
    simp only [List.length_cons] at h
    refine List.nodup_append.2 ⟨nodup_rowCells edge cx cy b, ih (cy + 1) (by omega), ?_⟩
    rintro p hp q hq rfl
    exact disjoint_rows (by omega) hp hq

/-! ## The cells a draw lights -/

/-- The cells of the sprite at I, for a draw of `n` rows. -/
def State.drawnCells (s : State) (x y : RegIdx) (n : Nibble) : List (Column × Row) :=
  spriteCells s.quirks.drawEdge (s.getReg x).toNat (s.getReg y).toNat
    ((List.range n.toNat).map fun k => s.spriteByte k)

theorem State.mem_drawnCells {s : State} {x y : RegIdx} {n : Nibble} {c : Column} {r : Row} :
    (c, r) ∈ s.drawnCells x y n ↔ s.lights x y n c r := by
  simp only [State.drawnCells, mem_spriteCells, State.lights, List.length_map, List.length_range, List.getElem_map,
    List.getElem_range, exists_prop]

theorem State.nodup_drawnCells (s : State) (x y : RegIdx) (n : Nibble) : (s.drawnCells x y n).Nodup :=
  nodup_spriteCells _ _ _ _ (by have := n.isLt; simp; omega)

/-- A draw whose sprite bytes all exist. -/
theorem execDrw_ok {s : State} {x y : RegIdx} {n : Nibble} (h : s.inRange n.toNat) :
    execDrw x y n s = commit ((s.advance.setScreen (xorCells s.fb false (s.drawnCells x y n)).1).setReg Config.flagReg
      (flagByte (xorCells s.fb false (s.drawnCells x y n)).2)) := by
  simp only [execDrw, State.memReadBytes_ok h, State.drawnCells]

end Sys2Proof.Machine
end

