-- ==== Sys2Proof/Laws/PerInstr.lean ====
section
/-! SUPPORT. One lemma per instruction form: its word matches the mask and match that R104 gives its row. -/

namespace Sys2Proof.Laws.RowMatch

/-- The mask and match of the instruction's row of R104. -/
def maskMatch : Instr → Word × Word
  | .cls => (0xFFFF, 0x00E0)
  | .ret => (0xFFFF, 0x00EE)
  | .sys _ => (0xF000, 0x0000)
  | .jp _ => (0xF000, 0x1000)
  | .call _ => (0xF000, 0x2000)
  | .seImm _ _ => (0xF000, 0x3000)
  | .sneImm _ _ => (0xF000, 0x4000)
  | .seReg _ _ => (0xF00F, 0x5000)
  | .ldImm _ _ => (0xF000, 0x6000)
  | .addImm _ _ => (0xF000, 0x7000)
  | .ldReg _ _ => (0xF00F, 0x8000)
  | .orReg _ _ => (0xF00F, 0x8001)
  | .andReg _ _ => (0xF00F, 0x8002)
  | .xorReg _ _ => (0xF00F, 0x8003)
  | .addReg _ _ => (0xF00F, 0x8004)
  | .subReg _ _ => (0xF00F, 0x8005)
  | .shr _ _ => (0xF00F, 0x8006)
  | .subn _ _ => (0xF00F, 0x8007)
  | .shl _ _ => (0xF00F, 0x800E)
  | .sneReg _ _ => (0xF00F, 0x9000)
  | .ldI _ => (0xF000, 0xA000)
  | .jpV0 _ => (0xF000, 0xB000)
  | .rnd _ _ => (0xF000, 0xC000)
  | .drw _ _ _ => (0xF000, 0xD000)
  | .skp _ => (0xF0FF, 0xE09E)
  | .sknp _ => (0xF0FF, 0xE0A1)
  | .ldVxDt _ => (0xF0FF, 0xF007)
  | .ldVxK _ => (0xF0FF, 0xF00A)
  | .ldDtVx _ => (0xF0FF, 0xF015)
  | .ldStVx _ => (0xF0FF, 0xF018)
  | .addIVx _ => (0xF0FF, 0xF01E)
  | .ldFVx _ => (0xF0FF, 0xF029)
  | .ldBVx _ => (0xF0FF, 0xF033)
  | .ldMemVx _ => (0xF0FF, 0xF055)
  | .ldVxMem _ => (0xF0FF, 0xF065)

/-- The instruction's word matches its row. -/
def Statement (i : Instr) : Prop := encode i &&& (maskMatch i).1 = (maskMatch i).2

/-! ## One lemma per form -/

theorem cls : Statement .cls := rfl
theorem ret : Statement .ret := rfl
theorem sys (nnn : Imm12) : Statement (.sys nnn) := encNNN_and_op _ _
theorem jp (nnn : Imm12) : Statement (.jp nnn) := encNNN_and_op _ _
theorem call (nnn : Imm12) : Statement (.call nnn) := encNNN_and_op _ _
theorem seImm (x : RegIdx) (nn : Byte) : Statement (.seImm x nn) := encXNN_and_op _ _ _
theorem sneImm (x : RegIdx) (nn : Byte) : Statement (.sneImm x nn) := encXNN_and_op _ _ _
theorem seReg (x y : RegIdx) : Statement (.seReg x y) := encXYN_and_op_n _ _ _ _
theorem ldImm (x : RegIdx) (nn : Byte) : Statement (.ldImm x nn) := encXNN_and_op _ _ _
theorem addImm (x : RegIdx) (nn : Byte) : Statement (.addImm x nn) := encXNN_and_op _ _ _
theorem ldReg (x y : RegIdx) : Statement (.ldReg x y) := encXYN_and_op_n _ _ _ _
theorem orReg (x y : RegIdx) : Statement (.orReg x y) := encXYN_and_op_n _ _ _ _
theorem andReg (x y : RegIdx) : Statement (.andReg x y) := encXYN_and_op_n _ _ _ _
theorem xorReg (x y : RegIdx) : Statement (.xorReg x y) := encXYN_and_op_n _ _ _ _
theorem addReg (x y : RegIdx) : Statement (.addReg x y) := encXYN_and_op_n _ _ _ _
theorem subReg (x y : RegIdx) : Statement (.subReg x y) := encXYN_and_op_n _ _ _ _
theorem shr (x y : RegIdx) : Statement (.shr x y) := encXYN_and_op_n _ _ _ _
theorem subn (x y : RegIdx) : Statement (.subn x y) := encXYN_and_op_n _ _ _ _
theorem shl (x y : RegIdx) : Statement (.shl x y) := encXYN_and_op_n _ _ _ _
theorem sneReg (x y : RegIdx) : Statement (.sneReg x y) := encXYN_and_op_n _ _ _ _
theorem ldI (nnn : Imm12) : Statement (.ldI nnn) := encNNN_and_op _ _
theorem jpV0 (nnn : Imm12) : Statement (.jpV0 nnn) := encNNN_and_op _ _
theorem rnd (x : RegIdx) (nn : Byte) : Statement (.rnd x nn) := encXNN_and_op _ _ _
theorem drw (x y : RegIdx) (n : Nibble) : Statement (.drw x y n) := encXYN_and_op _ _ _ _
theorem skp (x : RegIdx) : Statement (.skp x) := encXNN_and_op_nn _ _ _
theorem sknp (x : RegIdx) : Statement (.sknp x) := encXNN_and_op_nn _ _ _
theorem ldVxDt (x : RegIdx) : Statement (.ldVxDt x) := encXNN_and_op_nn _ _ _
theorem ldVxK (x : RegIdx) : Statement (.ldVxK x) := encXNN_and_op_nn _ _ _
theorem ldDtVx (x : RegIdx) : Statement (.ldDtVx x) := encXNN_and_op_nn _ _ _
theorem ldStVx (x : RegIdx) : Statement (.ldStVx x) := encXNN_and_op_nn _ _ _
theorem addIVx (x : RegIdx) : Statement (.addIVx x) := encXNN_and_op_nn _ _ _
theorem ldFVx (x : RegIdx) : Statement (.ldFVx x) := encXNN_and_op_nn _ _ _
theorem ldBVx (x : RegIdx) : Statement (.ldBVx x) := encXNN_and_op_nn _ _ _
theorem ldMemVx (x : RegIdx) : Statement (.ldMemVx x) := encXNN_and_op_nn _ _ _
theorem ldVxMem (x : RegIdx) : Statement (.ldVxMem x) := encXNN_and_op_nn _ _ _

end Sys2Proof.Laws.RowMatch
end

