-- ==== Sys2Proof/Tests/Slice0.lean ====
section
/-! SUPPORT. The model's own tests: ill-formed terms refused, words written out from R104, the vectors of
95_test_vectors.md, and for every statement with hypotheses a concrete witness that meets them. -/

namespace Sys2Proof.Tests

open Sys2Proof Sys2Proof.Machine

/-! ## Helpers -/

/-- What a field of the next state is; none where there is no next state. -/
def after {α : Type} (a : Answer) (f : State → α) : Option α :=
  match a with
  | .next t => some (f t)
  | .fault _ => none
  | .refused _ => none

/-- The reference configuration, under which the spec's vectors stand unless they say otherwise. -/
def ref : Quirks := Quirks.reference

/-- The constructed CORE with the configuration `q`, prepared by `set`, and the word `w` at pc. -/
def prep (q : Quirks) (set : State → State) (w : Nat) : State := (set (State.construct q)).withFetchWord 16 w

/-- One step of it. -/
def one (q : Quirks) (set : State → State) (w : Nat) : Answer := step (prep q set w)

/-- The error record of a state. -/
def errOf (t : State) : Option ErrorRecord := t.status.err?

/-- Two registers set. -/
def two (a b : RegIdx) (u v : Byte) (s : State) : State := (s.setReg a u).setReg b v

/-- Bytes put into memory. -/
def bytesAt (a : Nat) (bs : List Byte) (s : State) : State := s.setMem (Memory.writeRange s.mem a bs)

/-- Bytes of memory. -/
def peek (a n : Nat) (t : State) : List Byte := (List.range n).map fun k => t.mem.read (a + k)

/-! ## WellFormed: the two ill-formed terms (R104, R140) -/

theorem test_sys_0E0_illFormed : (Instr.sys 0x0E0).wellFormed = false := by decide

theorem test_sys_0EE_illFormed : (Instr.sys 0x0EE).wellFormed = false := by decide

/-! ## Decoding: a word of every row of R104, written out from its pattern -/

theorem test_decode_control :
    decodeWord 0x00EE = .ok .ret ∧ decodeWord 0x0123 = .ok (.sys 0x123) ∧ decodeWord 0x1ABC = .ok (.jp 0xABC) ∧
    decodeWord 0x2300 = .ok (.call 0x300) ∧ decodeWord 0x3A12 = .ok (.seImm 0xA 0x12) ∧
    decodeWord 0x4B13 = .ok (.sneImm 0xB 0x13) ∧ decodeWord 0x5120 = .ok (.seReg 1 2) ∧
    decodeWord 0x9340 = .ok (.sneReg 3 4) ∧ decodeWord 0xB2F0 = .ok (.jpV0 0x2F0) := by decide

theorem test_decode_alu_literal :
    decodeWord 0x6005 = .ok (.ldImm 0 0x05) ∧ decodeWord 0x7FFF = .ok (.addImm 0xF 0xFF) ∧
    decodeWord 0xC00F = .ok (.rnd 0 0x0F) := by decide

theorem test_decode_alu_register :
    decodeWord 0x8120 = .ok (.ldReg 1 2) ∧ decodeWord 0x8341 = .ok (.orReg 3 4) ∧
    decodeWord 0x8562 = .ok (.andReg 5 6) ∧ decodeWord 0x8783 = .ok (.xorReg 7 8) ∧
    decodeWord 0x8014 = .ok (.addReg 0 1) ∧ decodeWord 0x89A5 = .ok (.subReg 9 0xA) ∧
    decodeWord 0x8BC6 = .ok (.shr 0xB 0xC) ∧ decodeWord 0x8DE7 = .ok (.subn 0xD 0xE) ∧
    decodeWord 0x8F1E = .ok (.shl 0xF 1) := by decide

theorem test_decode_index :
    decodeWord 0xA300 = .ok (.ldI 0x300) ∧ decodeWord 0xF21E = .ok (.addIVx 2) ∧
    decodeWord 0xF329 = .ok (.ldFVx 3) ∧ decodeWord 0xF533 = .ok (.ldBVx 5) ∧
    decodeWord 0xF255 = .ok (.ldMemVx 2) ∧ decodeWord 0xFF65 = .ok (.ldVxMem 0xF) := by decide

theorem test_decode_display : decodeWord 0x00E0 = .ok .cls ∧ decodeWord 0xD125 = .ok (.drw 1 2 5) := by decide

theorem test_decode_keys_timers :
    decodeWord 0xE59E = .ok (.skp 5) ∧ decodeWord 0xE6A1 = .ok (.sknp 6) ∧ decodeWord 0xF107 = .ok (.ldVxDt 1) ∧
    decodeWord 0xF30A = .ok (.ldVxK 3) ∧ decodeWord 0xF015 = .ok (.ldDtVx 0) ∧
    decodeWord 0xF118 = .ok (.ldStVx 1) := by decide

/-- CF14, AL27, KT14 and one word of each other space of R105. -/
theorem test_decode_illegal :
    decodeWord 0x5121 = .error (.group5 0x5121) ∧ decodeWord 0x8018 = .error (.group8 0x8018) ∧
    decodeWord 0x9341 = .error (.group9 0x9341) ∧ decodeWord 0xE09F = .error (.groupE 0xE09F) ∧
    decodeWord 0xF0FF = .error (.groupF 0xF0FF) := by decide

/-- The bytes of L1.1, in memory order: the first is the high one. -/
theorem test_decode_bytes :
    decodeBytes [0x60, 0x05, 0x61] = .ok (.ldImm 0 0x05, [0x61]) ∧ decodeBytes [0x60] = .error .truncated ∧
    decodeTableWord 16 0x610A = some (.ldImm 1 0x0A) := by decide

/-! ## Control flow (95_test_vectors.md 2.1) -/

/-- CF2 -/
theorem test_sys : after (one ref id 0x0123) (fun t => (errOf t, t.pc)) =
    some (some ⟨.invalidOpcode, 0x200, some 0x0123, none⟩, 0x200) := by decide

/-- CF3 -/
theorem test_ret : after (one ref (fun s => { s with sp := 1, stack := s.stack.set 0 0x206 }) 0x00EE)
    (fun t => (t.pc, t.sp)) = some (0x206, 0) := by decide

/-- CF4 -/
theorem test_ret_underflow : after (one ref id 0x00EE) (fun t => (errOf t, t.pc)) =
    some (some ⟨.stackUnderflow, 0x200, some 0x00EE, none⟩, 0x200) := by decide

/-- CF5 -/
theorem test_jp : after (one ref id 0x1ABC) (·.pc) = some 0xABC := by decide

/-- CF7 -/
theorem test_call : after (one ref id 0x2300) (fun t => (t.stack[0], t.sp, t.pc)) = some (0x202, 1, 0x300) := by decide

/-- CF8 -/
theorem test_call_overflow : after (one ref (fun s => { s with sp := 16 }) 0x2300) (fun t => (errOf t, t.sp)) =
    some (some ⟨.stackOverflow, 0x200, some 0x2300, none⟩, 16) := by decide

/-- CF9, CF10 -/
theorem test_seImm : after (one ref (·.setReg 0 0x12) 0x3012) (·.pc) = some 0x204 ∧
    after (one ref (·.setReg 0 0x12) 0x3013) (·.pc) = some 0x202 := by decide

/-- CF11 -/
theorem test_sneImm : after (one ref (·.setReg 0 0x12) 0x4012) (·.pc) = some 0x202 ∧
    after (one ref (·.setReg 0 0x12) 0x4013) (·.pc) = some 0x204 := by decide

/-- CF12 -/
theorem test_seReg : after (one ref (two 1 2 7 7) 0x5120) (·.pc) = some 0x204 := by decide

/-- CF15, CF16 -/
theorem test_sneReg : after (one ref (two 1 2 7 8) 0x9120) (·.pc) = some 0x204 ∧
    after (one ref (two 1 2 7 8) 0x9110) (·.pc) = some 0x202 := by decide

/-- CF17, CF18 -/
theorem test_jpV0 : after (one ref (two 0 3 0x10 0x05) 0xB300) (·.pc) = some 0x310 ∧
    after (one { ref with jumpReg := .vx } (two 0 3 0x10 0x05) 0xB300) (·.pc) = some 0x305 := by decide

/-- CF19: the sum is not reduced modulo 4096, and the next fetch is out of range under `FAULT`. -/
theorem test_jpV0_beyond : after (one ref (·.setReg 0 0xFF) 0xBFFF) (·.pc) = some 0x10FE ∧
    after (step ((State.construct { ref with memEdge := .fault }).setPc 0x10FE)) errOf =
      some (some ⟨.memoryOutOfBounds, 0x10FE, none, some 0x10FE⟩) := by decide

/-! ## Registers and arithmetic (2.2) -/

/-- AL1 -/
theorem test_ldImm : after (one ref id 0x610A) (·.getReg 1) = some 0x0A := by decide

/-- AL2, AL3 -/
theorem test_addImm : after (one ref (two 0 15 0xFF 0) 0x7001) (fun t => (t.getReg 0, t.getReg 15)) = some (0, 0) ∧
    after (one ref (·.setReg 15 1) 0x7FFF) (·.getReg 15) = some 0 := by decide

/-- AL4 -/
theorem test_ldReg : after (one ref (·.setReg 2 0x33) 0x8120) (·.getReg 1) = some 0x33 := by decide

/-- AL5, AL6 -/
theorem test_orReg :
    after (one ref (fun s => (two 0 1 0xF0 0x0F s).setReg 15 0x55) 0x8011) (fun t => (t.getReg 0, t.getReg 15)) =
      some (0xFF, 0x55) ∧
    after (one { ref with vfReset := .on } (fun s => (two 0 1 0xF0 0x0F s).setReg 15 0x55) 0x8011)
      (fun t => (t.getReg 0, t.getReg 15)) = some (0xFF, 0x00) := by decide

/-- AL7 -/
theorem test_orReg_vf :
    after (one { ref with vfReset := .on } (two 15 1 0xF0 0x0F) 0x8F11) (·.getReg 15) = some 0x00 ∧
    after (one { ref with vfReset := .on, vfOrder := .resultWins } (two 15 1 0xF0 0x0F) 0x8F11) (·.getReg 15) =
      some 0xFF := by decide

/-- AL8 -/
theorem test_andReg : after (one ref (two 0 1 0xF0 0x3C) 0x8012) (·.getReg 0) = some 0x30 := by decide

/-- AL9, AL10 -/
theorem test_xorReg : after (one ref (two 0 1 0xF0 0x3C) 0x8013) (·.getReg 0) = some 0xCC ∧
    after (one ref (·.setReg 0 0x5A) 0x8003) (·.getReg 0) = some 0 := by decide

/-- AL12, AL14 -/
theorem test_addReg : after (one ref (two 0 1 0xFF 0x01) 0x8014) (fun t => (t.getReg 0, t.getReg 15)) = some (0, 1) ∧
    after (one ref (two 0 15 1 1) 0x80F4) (fun t => (t.getReg 0, t.getReg 15)) = some (2, 0) := by decide

/-- AL13 -/
theorem test_addReg_vf : after (one ref (two 15 1 0xFF 0x01) 0x8F14) (·.getReg 15) = some 1 ∧
    after (one { ref with vfOrder := .resultWins } (two 15 1 0xFF 0x01) 0x8F14) (·.getReg 15) = some 0 := by decide

/-- AL16, AL17 -/
theorem test_subReg : after (one ref (two 0 1 3 5) 0x8015) (fun t => (t.getReg 0, t.getReg 15)) = some (0xFE, 0) ∧
    after (one ref (two 0 1 7 7) 0x8015) (fun t => (t.getReg 0, t.getReg 15)) = some (0, 1) := by decide

/-- AL18 -/
theorem test_subReg_vf : after (one ref (two 15 1 5 3) 0x8F15) (·.getReg 15) = some 1 ∧
    after (one { ref with vfOrder := .resultWins } (two 15 1 5 3) 0x8F15) (·.getReg 15) = some 2 := by decide

/-- AL19, AL20 -/
theorem test_shr : after (one ref (two 0 1 5 4) 0x8016) (fun t => (t.getReg 0, t.getReg 1, t.getReg 15)) = some (2, 4, 1) ∧
    after (one { ref with shiftSrc := .vy } (two 0 1 5 4) 0x8016) (fun t => (t.getReg 0, t.getReg 1, t.getReg 15)) =
      some (2, 4, 0) := by decide

/-- AL21 -/
theorem test_shr_vf : after (one ref (·.setReg 15 2) 0x8F06) (·.getReg 15) = some 0 ∧
    after (one { ref with vfOrder := .resultWins } (·.setReg 15 2) 0x8F06) (·.getReg 15) = some 1 := by decide

/-- AL22, AL23 -/
theorem test_subn : after (one ref (two 0 1 3 5) 0x8017) (fun t => (t.getReg 0, t.getReg 15)) = some (2, 1) ∧
    after (one ref (two 0 1 5 3) 0x8017) (fun t => (t.getReg 0, t.getReg 15)) = some (0xFE, 0) := by decide

/-- AL25, AL26 -/
theorem test_shl :
    after (one ref (two 0 1 0x81 0x40) 0x801E) (fun t => (t.getReg 0, t.getReg 15)) = some (0x02, 1) ∧
    after (one { ref with shiftSrc := .vy } (two 0 1 0x81 0x40) 0x801E)
      (fun t => (t.getReg 0, t.getReg 1, t.getReg 15)) = some (0x80, 0x40, 0) := by decide

/-- AL28: with the literal 0 the result is 0 for every draw. -/
theorem test_rnd (s : State) : after (exec (.rnd 0 0) s) (·.getReg 0) = some 0 := by
  have h : Config.randomByte s.draws &&& 0#8 = 0#8 := BitVec.and_zero
  simp [exec, execRnd, commit, after, State.getReg, State.setReg, State.advance, State.setPc, State.countDraw,
    State.setProgress]

/-! ## Index register and memory (2.3) -/

/-- IM1 -/
theorem test_ldI : after (one ref (·.setIndex 0xFFFF) 0xA300) (·.index) = some 0x300 := by decide

/-- IM3, IM4 -/
theorem test_addIVx :
    after (one ref (fun s => (two 0 15 1 7 s).setIndex 0xFFFF) 0xF01E) (fun t => (t.index, t.getReg 15)) = some (0, 7) ∧
    after (one ref (fun s => (s.setReg 0 1).setIndex 0x0FFF) 0xF01E) (·.index) = some 0x1000 := by decide

/-- IM6, IM7 -/
theorem test_ldFVx : after (one ref (·.setReg 0 0x1A) 0xF029) (·.index) = some 0x032 ∧
    after (one ref (·.setReg 0 0x0F) 0xF029) (·.index) = some 0x04B := by decide

/-- IM13 -/
theorem test_ldBVx_wraps : after (one ref (fun s => (s.setReg 0 123).setIndex 0xFFE) 0xF033)
    (fun t => (peek 0xFFE 2 t, peek 0 1 t, t.index)) = some ([1, 2], [3], 0xFFE) := by decide

/-- IM14 -/
theorem test_ldBVx_faults : after (one { ref with memEdge := .fault } (fun s => (s.setReg 0 123).setIndex 0xFFE) 0xF033)
    (fun t => (errOf t, peek 0xFFE 2 t, peek 0 1 t)) =
    some (some ⟨.memoryOutOfBounds, 0x200, some 0xF033, some 0x1000⟩, [0, 0], [0xF0]) := by decide

/-- IM15, IM16 -/
theorem test_ldMemVx :
    after (one ref (fun s => ((two 0 1 1 2 s).setReg 2 3).setIndex 0x300) 0xF255) (fun t => (peek 0x300 4 t, t.index)) =
      some ([1, 2, 3, 0], 0x300) ∧
    after (one { ref with indexInc := .xPlus1 } (fun s => ((two 0 1 1 2 s).setReg 2 3).setIndex 0x300) 0xF255)
      (fun t => (peek 0x300 4 t, t.index)) = some ([1, 2, 3, 0], 0x303) := by decide

/-- IM17 -/
theorem test_ldMemVx_faults :
    after (one { ref with memEdge := .fault } (fun s => (two 0 1 1 2 s).setIndex 0xFFE) 0xF255)
      (fun t => (errOf t, peek 0xFFE 2 t)) =
    some (some ⟨.memoryOutOfBounds, 0x200, some 0xF255, some 0x1000⟩, [0, 0]) := by decide

/-- IM18 -/
theorem test_ldVxMem :
    after (one { ref with indexInc := .xPlus1 } (fun s => (bytesAt 0x300 [1, 2, 3, 4] s).setIndex 0x300) 0xF265)
      (fun t => (t.regs.toList.take 4, t.index)) = some ([1, 2, 3, 0], 0x303) := by decide

/-- IM20: all sixteen registers from the font. -/
theorem test_ldVxMem_font : after (one ref id 0xFF65) (fun t => t.regs.toList) =
    some [0xF0, 0x90, 0x90, 0x90, 0xF0, 0x20, 0x60, 0x20, 0x20, 0x70, 0xF0, 0x10, 0xF0, 0x80, 0xF0, 0xF0] := by decide

/-! ## Display (2.4) -/

/-- Some pixels of row 31 and of row 0, in the order the vectors name them. -/
def edgePixels (t : State) : List Bool × List Bool :=
  (([59, 60, 63, 0, 3, 4] : List Column).map fun c => pixel t.fb (c, 31),
   ([60, 61, 2, 3] : List Column).map fun c => pixel t.fb (c, 0))

/-- The state before DS2 and DS3. -/
def atEdge (s : State) : State := (bytesAt 0x20A [0xFF, 0x81] (two 0 1 60 31 s)).setIndex 0x20A

/-- DS1 -/
theorem test_cls : after (one ref (fun s => (s.setReg 15 9).setScreen (setPixel s.fb (63, 31) true)) 0x00E0)
    (fun t => (pixel t.fb (63, 31), t.getReg 15)) = some (false, 9) := by decide

/-- DS2 -/
theorem test_drw_wraps : after (one ref atEdge 0xD012) (fun t => (edgePixels t, t.getReg 15)) =
    some (([false, true, true, true, true, false], [true, false, false, true]), 0) := by decide

/-- DS3 -/
theorem test_drw_clips : after (one { ref with drawEdge := .clip } atEdge 0xD012)
    (fun t => (edgePixels t, t.getReg 15)) =
    some (([false, true, true, false, false, false], [false, false, false, false]), 0) := by decide

/-! ## Keypad and timers (2.5) -/

/-- KT1, KT4 -/
theorem test_skp : after (one ref (fun s => { s.setReg 0 5 with keys := s.keys.set 5 true }) 0xE09E) (·.pc) = some 0x204 ∧
    after (one ref (fun s => { s.setReg 0 0x15 with keys := s.keys.set 5 true }) 0xE09E) (·.pc) = some 0x202 := by decide

/-- KT3, KT5 -/
theorem test_sknp : after (one ref (·.setReg 0 5) 0xE0A1) (·.pc) = some 0x204 ∧
    after (one ref (fun s => { s.setReg 0 0x15 with keys := s.keys.set 5 true }) 0xE0A1) (·.pc) = some 0x204 := by decide

/-- KT6 -/
theorem test_ldVxK_blocks : after (one ref (·.setReg 3 9) 0xF30A) (fun t => (t.progress, t.pc, t.getReg 3)) =
    some (.stepped .blocked, 0x200, 9) := by decide

/-- A constructed CORE with key 9 pressed. -/
def key9 : State := { State.reset with keys := State.reset.keys.set 9 true }

/-- KT8: with one key pressed every choice is that key. -/
theorem test_ldVxK_one_key : after (exec (.ldVxK 15) key9) (fun t => (t.getReg 15, t.pc)) = some (9, 0x202) := by
  have hp : key9.pressedKeys = [9] := by decide
  have hk : chooseKey key9.draws 9 [] = 9 := by simp [chooseKey, Nat.mod_one]
  simp only [exec, execLdVxK]
  rw [hp]
  simp only
  rw [hk]
  decide

/-- KT9 -/
theorem test_ldVxDt : after (one ref (·.setDelay 0x3C) 0xF007) (fun t => (t.getReg 0, t.dt)) = some (0x3C, 0x3C) := by
  decide

/-- KT10 -/
theorem test_ldDtVx : after (one ref (·.setReg 0 2) 0xF015)
    (fun t => (t.dt, (tickTimers t).dt, (tickTimers (tickTimers t)).dt, (tickTimers (tickTimers (tickTimers t))).dt)) =
    some (2, 1, 0, 0) := by decide

/-- KT11 -/
theorem test_ldStVx : after (one ref (·.setReg 1 1) 0xF118)
    (fun t => (t.st, soundActive t, (tickTimers t).st, soundActive (tickTimers t))) = some (1, true, 0, false) := by
  decide

/-! ## Step cycle (2.6) -/

/-- SC1 -/
theorem test_fetch_wraps : after (step ((bytesAt 0 [0x34] (bytesAt 0xFFF [0x12] State.reset)).setPc 0xFFF)) (·.pc) =
    some 0x234 := by decide

/-- SC3 -/
theorem test_fetch_odd : after (step ((bytesAt 0x201 [0x60, 0x42] State.reset).setPc 0x201))
    (fun t => (t.getReg 0, t.pc)) = some (0x42, 0x203) := by decide

/-- SC8, the first step: the stored byte is part of the next word. -/
theorem test_store_is_fetched :
    after (one ref (fun s => (bytesAt 0x202 [0x60, 0x02] (s.setReg 0 0x12)).setIndex 0x202) 0xF055)
      (fun t => (t.pc, t.fetchWord.toOption)) = some (0x202, some 0x1202) := by decide

/-- KT13 -/
theorem test_tick_halted :
    (tickTimers ((State.reset.setDelay 4).halted ⟨.invalidOpcode, 0x200, some 0, none⟩)).dt = 3 := by decide

/-- R41: bit 6 is `mem_edge`, bit 0 `shift_src`; bit 7 is refused. -/
theorem test_qcfg : (quirksOfQcfg 0x41).map (fun q => (q.memEdge, q.shiftSrc, q.vfReset)) = some (.fault, .vy, .off) ∧
    quirksOfQcfg 0x80 = none := by decide

/-! ## Witnesses: each statement's hypotheses are met together, its clauses at their boundaries

Named after the obligation. -/

/-- The reference configuration with out-of-range addresses raising. -/
def flt : Quirks := { ref with memEdge := .fault }

/-- Every toggle at its second value. -/
def alt : Quirks :=
  { shiftSrc := .vy, indexInc := .xPlus1, jumpReg := .vx, drawEdge := .clip, vfReset := .on, vfOrder := .resultWins,
    memEdge := .fault }

/-- A CORE that `RET` halted on its first step. -/
def halt5 : State := State.reset.halted ⟨.stackUnderflow, 0x200, some 0x00EE, none⟩

theorem witness_DecodeOfEncode : (Instr.sys 0x0E1).wellFormed = true ∧ (Instr.sys 0x0ED).wellFormed = true ∧
    (Instr.sys 0xFFF).wellFormed = true ∧ (Instr.drw 15 15 15).wellFormed = true := by decide

theorem witness_EncodeOfDecode : decodeWord 0x0000 = .ok (.sys 0) ∧ decodeWord 0xFF65 = .ok (.ldVxMem 15) := by decide

theorem witness_DecodeIsFirstMatchingRow_overlap :
    (opcodeRows[0].accepts 0x00E0 = true ∧ opcodeRows[2].accepts 0x00E0 = true) ∧
    (opcodeRows[1].accepts 0x00EE = true ∧ opcodeRows[2].accepts 0x00EE = true) := by decide

theorem witness_DecodeIsFirstMatchingRow_none :
    (prep ref id 0x5121).status = .running ∧ (prep ref id 0x5121).fetchWord.toOption = some 0x5121 ∧
    decodeByTable 0x5121 = none := by decide

theorem witness_StepRuns : (prep ref id 0x8014).status = .running ∧
    (prep ref id 0x8014).fetchWord.toOption = some 0x8014 ∧ decodeWord 0x8014 = .ok (.addReg 0 1) ∧
    (prep ref id 0xF0FF).fetchWord.toOption = some 0xF0FF ∧ decodeWord 0xF0FF = .error (.groupF 0xF0FF) := by decide

theorem witness_FetchIsBigEndian :
    ((State.construct ref).setPc 0xFFFF).quirks.memEdge = .wrap ∧ ((State.construct flt).setPc 4094).pc.toNat + 1 < 4096 ∧
    ((State.construct flt).setPc 4094).fetchWord.toOption = some 0 ∧
    ((State.construct ref).setPc 0xFFFF).fetchWord.toOption = some 0x00F0 := by decide

theorem witness_FetchBeyondMemory :
    4096 ≤ ((State.construct flt).setPc 4095).pc.toNat + 1 ∧
    after (step ((State.construct flt).setPc 4095)) errOf = some (some ⟨.memoryOutOfBounds, 4095, none, some 4096⟩) ∧
    after (step ((State.construct flt).setPc 0xFFFF)) errOf =
      some (some ⟨.memoryOutOfBounds, 0xFFFF, none, some 0xFFFF⟩) := by decide

/-- The last odd pc that both bytes of a word fit at, under `FAULT`. -/
theorem witness_FetchBeyondMemory_odd : ((State.construct flt).setPc 4093).pc.toNat + 1 < 4096 ∧
    ((State.construct flt).setPc 4093).fetchWord.toOption = some 0 := by decide

theorem witness_HaltIsSticky : halt5.status = .halted ⟨.stackUnderflow, 0x200, some 0x00EE, none⟩ ∧ halt5.bootOk ∧
    ∃ t, runCommands [.step, .tickTimers, .setKeyState 15 true, .step] halt5 = .next t :=
  ⟨rfl, trivial, _, rfl⟩

theorem witness_ErrorsArePrecise : (prep ref id 0x00EE).status = .running ∧
    ∃ t e, step (prep ref id 0x00EE) = .next t ∧ t.progress = .stepped (.err e) ∧ t.status = .halted e :=
  ⟨rfl, _, _, rfl, rfl, rfl⟩

theorem witness_OnlyTheListed_load : State.reset.status = .running ∧
    ∃ t e, load (List.replicate 3585 0) State.reset = .next t ∧ t.status = .halted e := by
  rcases load_cases (List.replicate 3585 0) State.reset with ⟨_, h, _⟩ | ⟨_, _, h⟩ | ⟨h, _⟩
  · rw [List.length_replicate] at h; exact absurd h (by decide)
  · exact ⟨rfl, _, _, h, rfl⟩
  · exact absurd rfl h

theorem witness_OnlyTheListed_step :
    (∃ t e, step ((State.construct flt).setPc 4095) = .next t ∧ t.status = .halted e) ∧
    (∃ t e, step (prep ref id 0x9341) = .next t ∧ t.status = .halted e) ∧
    (∃ t e, step (prep ref id 0x0123) = .next t ∧ t.status = .halted e) :=
  ⟨⟨_, _, rfl, rfl⟩, ⟨_, _, rfl, rfl⟩, ⟨_, _, rfl, rfl⟩⟩

theorem witness_OnlyTheListed_exec :
    (∃ t e, exec (.sys 0) State.reset = .next t ∧ t.status = .halted e) ∧
    (∃ t e, exec (.ldBVx 0) ((State.construct flt).setIndex 4094) = .next t ∧ t.status = .halted e) ∧
    (∃ t e, exec (.call 0) { State.reset with sp := 16 } = .next t ∧ t.status = .halted e) ∧
    (∃ t e, exec .ret State.reset = .next t ∧ t.status = .halted e) :=
  ⟨⟨_, _, rfl, rfl⟩, ⟨_, _, rfl, rfl⟩, ⟨_, _, rfl, rfl⟩, ⟨_, _, rfl, rfl⟩⟩

/-- A halted state and a state with memory written both meet the invariant. -/
theorem witness_Inv : halt5.Inv ∧ (bytesAt 0x1FF [1, 2] (key9.setProgress (.stepped .blocked))).Inv := by
  have h : ∀ e, Progress.stepped .blocked ≠ .stepped (.err e) := fun e h => nomatch h
  exact ⟨⟨by decide, ⟨⟨rfl, rfl⟩, rfl, rfl, .inr rfl⟩, trivial⟩, ⟨by decide, h, trivial⟩⟩

theorem witness_CommandsKeepInvariant : halt5.Inv ∧ ∃ t, runCommands [.tickTimers, .step] halt5 = .next t :=
  ⟨witness_Inv.1, _, rfl⟩

theorem witness_Sys : (0x0E1#12 : Imm12) ≠ 0x0E0#12 ∧ (0x0E1#12 : Imm12) ≠ 0x0EE#12 ∧ (0x000#12 : Imm12) ≠ 0x0E0#12 := by
  decide

theorem witness_Ret : ({ State.reset with sp := 1 } : State).sp = (0 : Fin 16).succ ∧
    ({ State.reset with sp := 16 } : State).sp = (15 : Fin 16).succ ∧ State.reset.sp = 0 := by decide

theorem witness_Call : State.reset.sp = (0 : Fin 16).castSucc ∧
    ({ State.reset with sp := 15 } : State).sp = (15 : Fin 16).castSucc ∧
    ({ State.reset with sp := 16 } : State).sp = 16 := by decide

theorem witness_ReturnUndoesCall : State.reset.sp ≠ 16 ∧ ({ State.reset with sp := 15 } : State).sp ≠ 16 := by decide

theorem witness_JumpWithOffset :
    ((State.construct ref).quirks.jumpReg = .v0 ∧ (State.construct ref).quirks.jumpReg ≠ .vx) ∧
    ((State.construct alt).quirks.jumpReg = .vx ∧ (0xF#4 : Nibble).toFin = (15 : RegIdx)) := by decide

theorem witness_Logical :
    ((State.construct ref).quirks.vfReset = .off ∧
      (0xFF#8 : Byte) = (two 0 1 0xF0 0x0F (State.construct ref)).getReg 0 ||| (two 0 1 0xF0 0x0F (State.construct ref)).getReg 1) ∧
    ((State.construct alt).quirks.vfReset = .on ∧
      (0#8 : Byte) = (State.construct alt).getReg 15 ^^^ (State.construct alt).getReg 15) := by decide

theorem witness_Subtractions :
    (5#8 = (two 0 1 5 3 State.reset).getReg 0 ∧ 3#8 = (two 0 1 5 3 State.reset).getReg 1) ∧
    after (exec (.subn 0 1) (two 0 1 5 3 State.reset)) (·.getReg 15) = some 0 := by decide

theorem witness_Shifts :
    ((State.construct ref).quirks.shiftSrc = .vx ∧ 5#8 = (two 0 1 5 4 (State.construct ref)).getReg 0) ∧
    ((State.construct alt).quirks.shiftSrc = .vy ∧ 4#8 = (two 0 1 5 4 (State.construct alt)).getReg 1) := by decide

/-- The last I for which three bytes exist, the first for which they do not, and any I under `WRAP`. -/
theorem witness_Bcd : ((State.construct flt).setIndex 4093).inRange 3 ∧ ¬((State.construct flt).setIndex 4094).inRange 3 ∧
    ((State.construct ref).setIndex 0xFFFF).inRange 3 := by
  refine ⟨.inr (.inl (by decide)), ?_, .inl rfl⟩
  rintro (h | h | h)
  · cases h
  · revert h; decide
  · cases h

theorem witness_RegisterTransfer_indexNone : (State.construct ref).quirks.indexInc = .none ∧
    ((State.construct ref).setIndex 0xFFFF).inRange 16 := ⟨rfl, .inl rfl⟩

theorem witness_RegisterTransfer_indexInc : (State.construct alt).quirks.indexInc = .xPlus1 ∧
    ((State.construct alt).setIndex 4080).inRange 16 ∧ ((State.construct alt).setIndex 4095).inRange 1 ∧
    ¬((State.construct alt).setIndex 4081).inRange 16 := by
  refine ⟨rfl, .inr (.inl (by decide)), .inr (.inl (by decide)), ?_⟩
  rintro (h | h | h)
  · cases h
  · revert h; decide
  · cases h

/-- Vector SC8's one stored byte at 0x202, and a store whose last byte alone is the high byte of the next word. -/
theorem witness_StoredCode : ((State.construct flt).setIndex 0x202).inRange 1 ∧
    (0x202#16).toNat % 4096 = (((State.construct flt).setIndex 0x202).index.toNat + 0) % 4096 ∧
    ((State.construct flt).setIndex 0x1F3).inRange 16 ∧
    (0x202#16).toNat % 4096 = (((State.construct flt).setIndex 0x1F3).index.toNat + 15) % 4096 ∧
    (((State.construct flt).setIndex 0x202).pc + 2).toNat + 1 < 4096 :=
  ⟨.inr (.inl (by decide)), by decide, .inr (.inl (by decide)), by decide, by decide⟩

/-- `FX33` whose first digit alone meets the next word, as its low byte. -/
theorem witness_StoredCode_bcd : ((State.construct flt).setIndex 0x203).inRange 3 ∧
    after (exec (.ldBVx 0) (bytesAt 0x202 [0x60, 0x02] (((State.construct flt).setReg 0 123).setIndex 0x203)))
      (fun t => t.fetchWord.toOption) = some (some 0x6001) :=
  ⟨.inr (.inl (by decide)), by decide⟩

/-- A sprite row at the last cell, a draw of no rows beyond memory, and a row beyond memory. -/
theorem witness_Draw : ((State.construct flt).setIndex 4095).inRange 1 ∧ ((State.construct flt).setIndex 0xFFFF).inRange 0 ∧
    ¬((State.construct flt).setIndex 4096).inRange 1 := by
  refine ⟨.inr (.inl (by decide)), .inr (.inr rfl), ?_⟩
  rintro (h | h | h)
  · cases h
  · revert h; decide
  · cases h

/-- DS8's glyph drawn at the corner lights the corner and not its second cell of row 1; a second draw meets a lit cell
that is on. -/
theorem witness_Draw_lights : State.lights ((State.reset.setIndex 0x019)) 0 0 5 0 0 ∧
    ¬ State.lights (State.reset.setIndex 0x019) 0 0 1 8 0 ∧
    after (exec (.drw 0 0 5) (State.reset.setIndex 0x019)) (fun t => pixel t.fb (0, 0)) = some true := by
  refine ⟨⟨0, 0, by decide, by decide, by decide, by decide, by decide⟩, ?_, by decide⟩
  rintro ⟨k, j, hk, hj, _, hc, _⟩
  simp only [State.reset, State.construct, State.setIndex, State.getReg, Quirks.reference] at hc
  have hk : k < 1 := hk
  have hc : (0 + j) % 64 = 8 := hc
  omega

theorem witness_DoubleDraw : ((State.construct flt).setIndex 0x019).inRange 5 ∧
    ∃ t, exec (.drw 0 1 5) ((State.construct flt).setIndex 0x019) = .next t ∧
      t.getReg 0 = ((State.construct flt).setIndex 0x019).getReg 0 ∧
      t.getReg 1 = ((State.construct flt).setIndex 0x019).getReg 1 :=
  ⟨.inr (.inl (by decide)), _, rfl, by decide, by decide⟩

/-- The last key, and the first value that names none. -/
theorem witness_KeySkips :
    ((State.reset.setReg 0 15).getReg 0).toNat = (15 : KeyIdx).val ∧ 16 ≤ ((State.reset.setReg 0 16).getReg 0).toNat := by
  decide

theorem witness_WaitForKey : (∀ k : KeyIdx, State.reset.keys[k] = false) ∧ ∃ k : KeyIdx, key9.keys[k] = true :=
  ⟨by decide, 9, rfl⟩

theorem witness_SetKeyState : after (setKeyState 15 true State.reset) (fun t => t.keys[15]) = some true ∧
    setKeyState 16 true State.reset = .refused (.keyIndexOutOfRange 16) := ⟨by decide, rfl⟩

theorem witness_Load : State.reset.progress = .constructed ∧ (List.replicate 3584 (0#8 : Byte)).length ≤ 3584 ∧
    3584 < (List.replicate 3585 (0#8 : Byte)).length := by
  rw [List.length_replicate, List.length_replicate]
  decide

theorem witness_Load_refused : (State.reset.setProgress .loaded).progress ≠ .constructed ∧ halt5.progress ≠ .constructed := by
  decide

theorem witness_Qcfg : (0x80#8).getLsbD 7 = true ∧ (0x7F#8).getLsbD 7 = false ∧
    ∃ t, applyCommand (.load [1]) State.reset = .next t := ⟨by decide, by decide, _, rfl⟩

theorem witness_ConfigurationNeverChanges :
    (∃ t, runCommands [.load [0x12], .step, .tickTimers] State.reset = .next t) ∧
    ∀ k p, Command.setKeyState k p ∉ [.load [0x12], .step, .tickTimers] :=
  ⟨⟨_, rfl⟩, fun k p => by simp⟩

theorem witness_WritersOfIndex :
    (∃ t, exec (.ldI 1) State.reset = .next t ∧ t.index ≠ State.reset.index) ∧
    (∃ t, exec (.ldVxMem 0) (State.construct alt) = .next t ∧ t.index ≠ (State.construct alt).index) :=
  ⟨⟨_, rfl, by decide⟩, ⟨_, rfl, by decide⟩⟩

theorem witness_WritersOfStackTimersScreenMemory :
    (∃ t, exec (.call 0x300) State.reset = .next t ∧ t.sp ≠ State.reset.sp) ∧
    (∃ t, exec (.ldDtVx 0) (State.reset.setReg 0 1) = .next t ∧ t.dt ≠ State.reset.dt) ∧
    (∃ t, exec (.ldStVx 0) (State.reset.setReg 0 1) = .next t ∧ t.st ≠ State.reset.st) ∧
    (∃ t, exec (.drw 0 0 1) State.reset = .next t ∧ pixel t.fb (0, 0) ≠ pixel State.reset.fb (0, 0)) ∧
    (∃ t, exec (.ldBVx 0) State.reset = .next t ∧ t.mem.read 0 ≠ State.reset.mem.read 0) :=
  ⟨⟨_, rfl, by decide⟩, ⟨_, rfl, by decide⟩, ⟨_, rfl, by decide⟩, ⟨_, rfl, by decide⟩, ⟨_, rfl, by decide⟩⟩

theorem witness_WritersOfVf :
    (∃ t, exec (.addReg 0 0) (State.reset.setReg 0 0x80) = .next t ∧ t.getReg 15 ≠ 0) ∧
    (∃ t, exec (.orReg 0 0) ((State.construct alt).setReg 15 1) = .next t ∧ t.getReg 15 ≠ 1) ∧
    (∃ t, exec (.ldImm 15 1) State.reset = .next t ∧ t.getReg 15 ≠ 0) :=
  ⟨⟨_, rfl, by decide⟩, ⟨_, rfl, by decide⟩, ⟨_, rfl, by decide⟩⟩

theorem witness_SoundTimer : ∃ t, step (prep ref id 0xF018) = .next t := ⟨_, rfl⟩

/-- With one live entry, entries 1 to 15 may differ. -/
theorem witness_StaleStack :
    (∀ j : Fin 16, j.val < (1 : Fin 17).val → ((State.reset.stack.set 1 7))[j] = State.reset.stack[j]) ∧
    ∃ t, step (prep ref (fun s => { s with sp := 1 }) 0x00EE) = .next t := ⟨by decide, _, rfl⟩

theorem witness_WrapNeverRunsOutOfBounds : (prep ref id 0x0123).quirks.memEdge = .wrap ∧
    (prep ref id 0x0123).status = .running ∧
    ∃ t e, runCommands [.step, .step] (prep ref id 0x0123) = .next t ∧ t.status = .halted e :=
  ⟨rfl, rfl, _, _, rfl, rfl⟩

theorem witness_Frames_registers : (∃ t, exec (.addImm 1 0xFF) State.reset = .next t) ∧
    (∃ t, exec (.rnd 1 0xFF) State.reset = .next t) ∧ (∃ t, exec (.shl 1 2) (State.construct alt) = .next t) ∧
    (∃ t, exec (.xorReg 1 2) (State.construct alt) = .next t) :=
  ⟨⟨_, rfl⟩, ⟨_, rfl⟩, ⟨_, rfl⟩, ⟨_, rfl⟩⟩

theorem witness_Frames_others : (∃ t, exec (.jpV0 0x300) State.reset = .next t) ∧
    (∃ t, exec (.sys 1) State.reset = .next t) ∧ (∃ t, exec .ret { State.reset with sp := 1 } = .next t) ∧
    (∃ t, exec (.ldFVx 1) State.reset = .next t) ∧ (∃ t, exec (.ldDtVx 1) State.reset = .next t) ∧
    (∃ t, exec (.ldStVx 1) State.reset = .next t) ∧ (∃ t, exec .cls State.reset = .next t) ∧
    (∃ t, exec (.drw 1 2 3) State.reset = .next t) ∧ (∃ t, exec (.ldBVx 1) State.reset = .next t) ∧
    (∃ t, exec (.ldMemVx 1) (State.construct alt) = .next t) ∧ (∃ t, exec (.ldVxMem 1) (State.construct alt) = .next t) :=
  ⟨⟨_, rfl⟩, ⟨_, rfl⟩, ⟨_, rfl⟩, ⟨_, rfl⟩, ⟨_, rfl⟩, ⟨_, rfl⟩, ⟨_, rfl⟩, ⟨_, rfl⟩, ⟨_, rfl⟩, ⟨_, rfl⟩, ⟨_, rfl⟩⟩

end Sys2Proof.Tests
end

/-! PROOFS. The state (10_state.md): the frame of every instruction and, from it, which forms write which state;
what no step reads; configuration and the key snapshot; construction. -/

namespace Sys2Proof.Machine

/-! ## What one instruction may change

`touches i s` names everything the form `i` may change in the state `s`.  `exec_frame` says once, for all 35 forms, that
nothing else changes; which forms write a given piece of state (R32 to R38, R70) is then read off `touches`. -/

/-- What the instruction `i` may change when it executes in the state `s`, besides pc and the step's result. -/
def touches (i : Instr) (s : State) : Touched :=
  match i with
  | .cls => { screen := True }
  | .ret | .call _ => { stack := True, status := True }
  | .sys _ => { status := True }
  | .jp _ | .jpV0 _ | .seImm _ _ | .sneImm _ _ | .seReg _ _ | .sneReg _ _ | .skp _ | .sknp _ => {}
  | .ldImm x _ | .addImm x _ | .ldReg x _ | .ldVxDt x => { regs := fun r => r = x }
  | .rnd x _ | .ldVxK x => { regs := fun r => r = x, draws := True }
  | .orReg x _ | .andReg x _ | .xorReg x _ => { regs := fun r => r = x ∨ (r = 15 ∧ s.quirks.vfReset = .on) }
  | .addReg x _ | .subReg x _ | .subn x _ | .shr x _ | .shl x _ => { regs := fun r => r = x ∨ r = 15 }
  | .ldI _ | .addIVx _ | .ldFVx _ => { index := True }
  | .drw _ _ _ => { regs := fun r => r = 15, screen := True, status := True }
  | .ldDtVx _ => { delay := True }
  | .ldStVx _ => { sound := True }
  | .ldBVx _ => { cells := s.accessedCells 3, status := True }
  | .ldMemVx x => { cells := s.accessedCells (x.val + 1), index := s.quirks.indexInc = .xPlus1, status := True }
  | .ldVxMem x => { regs := fun r => r ≤ x, index := s.quirks.indexInc = .xPlus1, status := True }

/-! ### One frame rule per state operation -/

section FrameRules

variable {w : Touched} {s s' t : State}

theorem Frame.refl (w : Touched) (s : State) : Frame w s s where
  regs _ _ := rfl
  index _ := rfl
  stack _ := ⟨rfl, rfl⟩
  delay _ := rfl
  sound _ := rfl
  screen _ := rfl
  status _ := rfl
  draws _ := rfl
  keys := rfl
  quirks := rfl
  mem _ _ := rfl

theorem Frame.setPc (h : Frame w s s') (v : Word) : Frame w s (s'.setPc v) := { h with }

theorem Frame.advance (h : Frame w s s') : Frame w s s'.advance := h.setPc _

theorem Frame.skipIf (h : Frame w s s') (c : Bool) : Frame w s (s'.skipIf c) := by
  cases c
  · exact h
  · exact h.setPc _

theorem Frame.setProgress (h : Frame w s s') (p : Progress) : Frame w s (s'.setProgress p) := { h with }

theorem Frame.setStatus (h : Frame w s s') (hw : w.status) (x : Status) : Frame w s (s'.setStatus x) :=
  { h with status := absurd hw }

theorem Frame.setReg (h : Frame w s s') {r : RegIdx} (hw : w.regs r) (v : Byte) : Frame w s (s'.setReg r v) :=
  { h with
    regs := fun q hq => by
      rw [State.getReg_setReg, if_neg (fun e : q = r => hq (e ▸ hw))]
      exact h.regs q hq }

theorem Frame.writeResultAndFlag (h : Frame w s s') {x : RegIdx} (hx : w.regs x) (hf : w.regs 15) (v f : Byte) :
    Frame w s (s'.writeResultAndFlag x v f) := by
  simp only [State.writeResultAndFlag]
  split
  · exact (h.setReg hx v).setReg hf f
  · exact (h.setReg hf f).setReg hx v

theorem Frame.writeLogical (h : Frame w s s') {x : RegIdx} (hx : w.regs x)
    (hf : s'.quirks.vfReset = .on → w.regs 15) (v : Byte) : Frame w s (s'.writeLogical x v) := by
  simp only [State.writeLogical]
  split
  · next hon => exact h.writeResultAndFlag hx (hf hon) v 0
  · exact h.setReg hx v

theorem Frame.setRegsFrom {k : Nat} {bs : List Byte} (h : Frame w s s')
    (hw : ∀ r : RegIdx, r.val < k + bs.length → w.regs r) : Frame w s (s'.setRegsFrom k bs) := by
  induction bs generalizing s' k with
  | nil => exact h
  | cons b bs ih =>
    simp only [List.length_cons] at hw
    simp only [State.setRegsFrom]
    split
    · exact ih (h.setReg (hw _ (by simp)) b) fun r hr => hw r (by omega)
    · exact h

theorem Frame.setIndex (h : Frame w s s') (hw : w.index) (v : Word) : Frame w s (s'.setIndex v) :=
  { h with index := absurd hw }

/-- I after a transfer is I as it was, unless `index_inc` moves it (R214, R215). -/
theorem Frame.setIndexAfter (h : Frame w s s') (hw : s.quirks.indexInc = .xPlus1 → w.index) (x : RegIdx) :
    Frame w s (s'.setIndex (s.indexAfter x)) :=
  { h with
    index := fun hn => by
      simp only [State.setIndex_index, State.indexAfter]
      split
      · rfl
      · next hinc => exact absurd (hw hinc) hn }

theorem Frame.setStack (h : Frame w s s') (hw : w.stack) (k : Vector Word 16) (n : Fin 17) :
    Frame w s { s' with stack := k, sp := n } :=
  { h with stack := absurd hw }

theorem Frame.setDelay (h : Frame w s s') (hw : w.delay) (v : Byte) : Frame w s (s'.setDelay v) :=
  { h with delay := absurd hw }

theorem Frame.setSound (h : Frame w s s') (hw : w.sound) (v : Byte) : Frame w s (s'.setSound v) :=
  { h with sound := absurd hw }

theorem Frame.setScreen (h : Frame w s s') (hw : w.screen) (f : FrameBuffer) : Frame w s (s'.setScreen f) :=
  { h with screen := absurd hw }

theorem Frame.countDraw (h : Frame w s s') (hw : w.draws) : Frame w s s'.countDraw :=
  { h with draws := absurd hw }

theorem Frame.setMem (h : Frame w s s') {m : Memory} (hw : ∀ a, ¬ w.cells a → m.read a = s.mem.read a) :
    Frame w s (s'.setMem m) :=
  { h with mem := hw }

/-! ### The ways a step ends -/

theorem Frame.commit (h : Frame w s s') (ht : commit s' = .next t) : Frame w s t := by
  cases ht
  exact h.setProgress _

theorem Frame.raise (h : Frame w s s') (hw : w.status) {e : ErrorRecord} (ht : raise e s' = .next t) :
    Frame w s t := by
  cases ht
  exact (h.setStatus hw _).setProgress _

end FrameRules

/-- An instruction changes nothing but pc, the step's result and what `touches` names. -/
theorem exec_frame {i : Instr} {s t : State} (h : exec i s = .next t) : Frame (touches i s) s t := by
  have adv : Frame (touches i s) s s.advance := (Frame.refl _ s).advance
  cases i with
  | cls => exact (adv.setScreen trivial _).commit h
  | ret =>
    simp only [exec, execRet] at h
    rcases s.advance.pop_cases with ⟨_, hp⟩ | ⟨k, _, hp⟩ <;> rw [hp] at h
    · exact (Frame.refl _ s).raise trivial h
    · exact ((adv.setStack trivial _ _).setPc _).commit h
  | sys nnn => exact (Frame.refl _ s).raise trivial h
  | call nnn =>
    simp only [exec, execCall] at h
    rcases s.advance.push_cases s.advance.pc with ⟨_, hp⟩ | ⟨k, _, hp⟩ <;> rw [hp] at h
    · exact (Frame.refl _ s).raise trivial h
    · exact ((adv.setStack trivial _ _).setPc _).commit h
  | jp nnn | jpV0 nnn => exact (adv.setPc _).commit h
  | seImm x nn | sneImm x nn | seReg x y | sneReg x y | skp x | sknp x => exact (adv.skipIf _).commit h
  | ldImm x nn | addImm x nn | ldReg x y | ldVxDt x => exact (adv.setReg rfl _).commit h
  | rnd x nn => exact ((adv.setReg rfl _).countDraw trivial).commit h
  | ldVxK x =>
    simp only [exec, execLdVxK] at h
    split at h
    · cases h
      exact (Frame.refl _ s).setProgress _
    · exact ((adv.setReg rfl _).countDraw trivial).commit h
  | orReg x y | andReg x y | xorReg x y =>
    exact (adv.writeLogical (.inl rfl) (fun hon => .inr ⟨rfl, hon⟩) _).commit h
  | addReg x y | subReg x y | subn x y | shr x y | shl x y =>
    exact (adv.writeResultAndFlag (.inl rfl) (.inr rfl) _ _).commit h
  | ldI nnn | addIVx x | ldFVx x => exact (adv.setIndex trivial _).commit h
  | ldDtVx x => exact (adv.setDelay trivial _).commit h
  | ldStVx x => exact (adv.setSound trivial _).commit h
  | drw x y n =>
    simp only [exec, execDrw] at h
    split at h
    · exact ((adv.setScreen trivial _).setReg rfl _).commit h
    · exact (Frame.refl _ s).raise trivial h
  | ldBVx x =>
    simp only [exec, execLdBVx] at h
    rcases s.memWriteBytes_cases (bcdDigits (s.getReg x)) (by simp [length_bcdDigits, Config.memSize])
      with ⟨_, m, hm, _, _, hout⟩ | ⟨_, _, hm⟩ <;> rw [hm] at h
    · exact (adv.setMem hout).commit h
    · exact (Frame.refl _ s).raise trivial h
  | ldMemVx x =>
    simp only [exec, execLdMemVx] at h
    have hlen := s.length_regsUpTo x
    rcases s.memWriteBytes_cases (s.regsUpTo x) (by simp only [hlen, Config.memSize]; omega)
      with ⟨_, m, hm, _, _, hout⟩ | ⟨_, _, hm⟩ <;> rw [hm] at h
    · exact ((adv.setMem (by rwa [hlen] at hout)).setIndexAfter id x).commit h
    · exact (Frame.refl _ s).raise trivial h
  | ldVxMem x =>
    simp only [exec, execLdVxMem] at h
    rcases s.memReadBytes_cases (x.val + 1) with ⟨_, hm⟩ | ⟨_, _, hm⟩ <;> rw [hm] at h
    · refine ((adv.setRegsFrom fun r hr => ?_).setIndexAfter id x).commit h
      simp only [List.length_map, List.length_range] at hr
      exact Fin.le_def.2 (by omega)
    · exact (Frame.refl _ s).raise trivial h

/-! ### Which forms touch a piece of state

Each is read off `touches`, form by form. -/

theorem of_touches_index {i : Instr} {s : State} (h : (touches i s).index) :
    (∃ nnn, i = .ldI nnn) ∨ (∃ x, i = .addIVx x) ∨ (∃ x, i = .ldFVx x) ∨
      (s.quirks.indexInc = .xPlus1 ∧ ((∃ x, i = .ldMemVx x) ∨ (∃ x, i = .ldVxMem x))) := by
  cases i <;> simp_all [touches]

theorem of_touches_stack {i : Instr} {s : State} (h : (touches i s).stack) : (∃ nnn, i = .call nnn) ∨ i = .ret := by
  cases i <;> simp_all [touches]

theorem of_touches_delay {i : Instr} {s : State} (h : (touches i s).delay) : ∃ x, i = .ldDtVx x := by
  cases i <;> simp_all [touches]

theorem of_touches_sound {i : Instr} {s : State} (h : (touches i s).sound) : ∃ x, i = .ldStVx x := by
  cases i <;> simp_all [touches]

theorem of_touches_screen {i : Instr} {s : State} (h : (touches i s).screen) :
    i = .cls ∨ ∃ x y n, i = .drw x y n := by
  cases i <;> simp_all [touches]

theorem of_touches_cells {i : Instr} {s : State} {a : Nat} (h : (touches i s).cells a) :
    (∃ x, i = .ldBVx x) ∨ (∃ x, i = .ldMemVx x) := by
  cases i <;> simp_all [touches]

/-- The forms whose footprint holds VF: as a flag, or as the destination (R32). -/
theorem of_touches_vf {i : Instr} {s : State} (h : (touches i s).regs 15) :
    (∃ x y, i = .addReg x y ∨ i = .subReg x y ∨ i = .subn x y ∨ i = .shr x y ∨ i = .shl x y) ∨
    (∃ x y n, i = .drw x y n) ∨
    (∃ x y, (s.quirks.vfReset = .on ∨ x = 15) ∧ (i = .orReg x y ∨ i = .andReg x y ∨ i = .xorReg x y)) ∨
    (∃ nn, i = .ldImm 15 nn ∨ i = .addImm 15 nn ∨ i = .rnd 15 nn) ∨
    (∃ y, i = .ldReg 15 y) ∨ i = .ldVxDt 15 ∨ i = .ldVxK 15 ∨ i = .ldVxMem 15 := by
  cases i with
  | ldVxMem x =>
    have hx : x = 15 := Fin.last_le_iff.1 h
    simp [hx]
  | orReg x y | andReg x y | xorReg x y =>
    have hx : s.quirks.vfReset = .on ∨ x = 15 := h.symm.imp And.right Eq.symm
    simp [hx]
  | _ => simp_all [touches]

/-! ## Calls and returns -/

/-- A call with sixteen live entries raises (R143). -/
theorem exec_call_full {s : State} (h : s.sp = 16) (nnn : Imm12) :
    exec (.call nnn) s = raiseInsn .stackOverflow (.call nnn) none s := by
  simp only [exec, execCall, State.push_none (s := s.advance) h]

/-- A call with a free entry (R143). -/
theorem exec_call_push {s : State} {k : Fin 16} (h : s.sp = k.castSucc) (nnn : Imm12) :
    exec (.call nnn) s = .next { s with
      pc := zext16 nnn, stack := s.stack.set k (s.pc + 2), sp := k.succ, progress := .stepped .executed } := by
  simp only [exec, execCall, State.push_some (s := s.advance) h]
  rfl

/-- A return with no live entry raises (R141). -/
theorem exec_ret_empty {s : State} (h : s.sp = 0) : exec .ret s = raiseInsn .stackUnderflow .ret none s := by
  simp only [exec, execRet, State.pop_none (s := s.advance) h]

/-- A return with a live entry (R141). -/
theorem exec_ret_pop {s : State} {k : Fin 16} (h : s.sp = k.succ) :
    exec .ret s = .next { s with pc := s.stack[k], sp := k.castSucc, progress := .stepped .executed } := by
  simp only [exec, execRet, State.pop_some (s := s.advance) h]
  rfl

/-! ## State that no other instruction reads

`s.withHidden v k` is `s` with the sound timer and the stack array replaced.  Every form but `FX18`, calls and returns
commutes with that replacement (R35, R277). -/

/-- `s` with another sound timer and other stack entries. -/
def State.withHidden (s : State) (v : Byte) (k : Vector Word 16) : State := { s with st := v, stack := k }

/-- What `f` makes of the next state. -/
def mapNext (f : State → State) : Answer → Answer
  | .next t => .next (f t)
  | .fault r => .fault r
  | .refused r => .refused r

section Hidden

variable (s : State) (v : Byte) (k : Vector Word 16)

@[simp] theorem State.fetchDecode_withHidden : (s.withHidden v k).fetchDecode = s.fetchDecode := rfl
@[simp] theorem State.getReg_withHidden (r : RegIdx) : (s.withHidden v k).getReg r = s.getReg r := rfl
@[simp] theorem State.regsUpTo_withHidden (x : RegIdx) : (s.withHidden v k).regsUpTo x = s.regsUpTo x := rfl
@[simp] theorem State.pressedKeys_withHidden : (s.withHidden v k).pressedKeys = s.pressedKeys := rfl
@[simp] theorem State.base_withHidden : (s.withHidden v k).base = s.base := rfl
@[simp] theorem State.memReadBytes_withHidden (a n : Nat) :
    (s.withHidden v k).memReadBytes a n = s.memReadBytes a n := rfl
@[simp] theorem State.memWriteBytes_withHidden (a : Nat) (bs : List Byte) :
    (s.withHidden v k).memWriteBytes a bs = s.memWriteBytes a bs := rfl
@[simp] theorem State.withHidden_quirks : (s.withHidden v k).quirks = s.quirks := rfl

theorem State.skipIf_withHidden (c : Bool) : (s.withHidden v k).skipIf c = (s.skipIf c).withHidden v k := by
  cases c <;> rfl

theorem State.writeResultAndFlag_withHidden (x : RegIdx) (r f : Byte) :
    (s.withHidden v k).writeResultAndFlag x r f = (s.writeResultAndFlag x r f).withHidden v k := by
  simp only [State.writeResultAndFlag, State.withHidden_quirks]
  split <;> rfl

theorem State.writeLogical_withHidden (x : RegIdx) (r : Byte) :
    (s.withHidden v k).writeLogical x r = (s.writeLogical x r).withHidden v k := by
  simp only [State.writeLogical, State.withHidden_quirks]
  split
  · exact s.writeResultAndFlag_withHidden v k x r 0
  · rfl

theorem State.setRegsFrom_withHidden (n : Nat) (bs : List Byte) :
    (s.withHidden v k).setRegsFrom n bs = (s.setRegsFrom n bs).withHidden v k := by
  induction bs generalizing s n with
  | nil => rfl
  | cons b bs ih =>
    simp only [State.setRegsFrom]
    split
    · next hn => exact ih (s.setReg ⟨n, hn⟩ b) (n + 1)
    · rfl

end Hidden

/-- Every form but calls, returns and `FX18` executes as if ST and the stack array were not there. -/
theorem exec_withHidden {i : Instr} {s : State} (hk : ¬ (touches i s).stack) (hv : ¬ (touches i s).sound) (v : Byte)
    (k : Vector Word 16) : exec i (s.withHidden v k) = mapNext (·.withHidden v k) (exec i s) := by
  cases i with
  | ret | call _ => exact absurd trivial hk
  | ldStVx _ => exact absurd trivial hv
  | seImm x nn | sneImm x nn | seReg x y | sneReg x y | skp x | sknp x =>
    exact congrArg commit (s.advance.skipIf_withHidden v k _)
  | addReg x y | subReg x y | subn x y | shr x y | shl x y =>
    exact congrArg commit (s.advance.writeResultAndFlag_withHidden v k x _ _)
  | orReg x y | andReg x y | xorReg x y => exact congrArg commit (s.advance.writeLogical_withHidden v k x _)
  | ldVxK x =>
    simp only [exec, execLdVxK, State.pressedKeys_withHidden]
    split <;> rfl
  | drw x y n =>
    simp only [exec, execDrw, State.base_withHidden, State.memReadBytes_withHidden]
    split <;> rfl
  | ldBVx x =>
    simp only [exec, execLdBVx, State.base_withHidden, State.getReg_withHidden, State.memWriteBytes_withHidden]
    split <;> rfl
  | ldMemVx x =>
    simp only [exec, execLdMemVx, State.base_withHidden, State.regsUpTo_withHidden, State.memWriteBytes_withHidden]
    split <;> rfl
  | ldVxMem x =>
    simp only [exec, execLdVxMem, State.base_withHidden, State.memReadBytes_withHidden]
    split
    · next bs _ =>
      exact congrArg (fun u => commit (u.setIndex (s.indexAfter x))) (s.advance.setRegsFrom_withHidden v k 0 bs)
    · rfl
  | _ => rfl

/-- Two stack arrays hold the same entries below `n`. -/
def AgreeBelow (n : Fin 17) (k l : Vector Word 16) : Prop := ∀ j : Fin 16, j.val < n.val → k[j] = l[j]

/-- `run` answers `t` from `s`; from `s` with ST and the stack entries replaced by `v` and `k` it answers `t` but for ST
and stale stack entries, and a field that was replaced by itself does not differ afterwards. -/
def CarriesHidden (run : State → Answer) (s t : State) (v : Byte) (k : Vector Word 16) : Prop :=
  ∃ v' k', run (s.withHidden v k) = .next (t.withHidden v' k') ∧ (v = s.st → v' = t.st) ∧ (k = s.stack → k' = t.stack) ∧
    AgreeBelow t.sp k' t.stack

section CarriesHidden

variable {s t : State} {v : Byte} {k : Vector Word 16}

/-- The replaced fields stay where `run` writes neither ST nor a stack entry and makes no entry live. -/
theorem CarriesHidden.of_unchanged {run : State → Answer} (hk : AgreeBelow s.sp k s.stack)
    (h : run (s.withHidden v k) = .next (t.withHidden v k)) (hst : t.st = s.st) (hstack : t.stack = s.stack)
    (hsp : t.sp ≤ s.sp) : CarriesHidden run s t v k :=
  ⟨v, k, h, fun hv => hv.trans hst.symm, fun e => e.trans hstack.symm,
    fun j hj => hstack ▸ hk j (hj.trans_le hsp)⟩

/-- A call makes live the one entry that it writes. -/
theorem exec_call_carriesHidden {nnn : Imm12} (hk : AgreeBelow s.sp k s.stack) (h : exec (.call nnn) s = .next t) :
    CarriesHidden (exec (.call nnn)) s t v k := by
  rcases s.sp.eq_castSucc_or_eq_last with ⟨j, hj⟩ | hfull
  · rw [exec_call_push hj] at h
    cases h
    refine ⟨v, k.set j (s.pc + 2), exec_call_push (s := s.withHidden v k) hj nnn, id, fun e => by rw [e],
      fun l hl => ?_⟩
    simp only [Fin.getElem_fin, Vector.getElem_set]
    split
    · rfl
    · next hne =>
      refine hk l ?_
      simp only [hj, Fin.val_castSucc, Fin.val_succ] at hl ⊢
      omega
  · rw [exec_call_full hfull] at h
    cases h
    exact .of_unchanged hk (exec_call_full (s := s.withHidden v k) hfull nnn) rfl rfl le_rfl

/-- A return reads the newest live entry. -/
theorem exec_ret_carriesHidden (hk : AgreeBelow s.sp k s.stack) (h : exec .ret s = .next t) :
    CarriesHidden (exec .ret) s t v k := by
  rcases s.sp.eq_zero_or_eq_succ with hempty | ⟨j, hj⟩
  · rw [exec_ret_empty hempty] at h
    cases h
    exact .of_unchanged hk (exec_ret_empty (s := s.withHidden v k) hempty) rfl rfl le_rfl
  · rw [exec_ret_pop hj] at h
    cases h
    have htop : k[j] = s.stack[j] := hk j (by simp [hj])
    refine .of_unchanged hk ?_ rfl rfl (by rw [hj]; exact j.castSucc_lt_succ.le)
    rw [exec_ret_pop (s := s.withHidden v k) hj, ← htop]
    rfl

/-- Every form carries the replaced fields along, `FX18` by overwriting ST. -/
theorem exec_carriesHidden {i : Instr} (hk : AgreeBelow s.sp k s.stack) (h : exec i s = .next t) :
    CarriesHidden (exec i) s t v k := by
  by_cases hstack : (touches i s).stack
  · rcases of_touches_stack hstack with ⟨nnn, rfl⟩ | rfl
    · exact exec_call_carriesHidden hk h
    · exact exec_ret_carriesHidden hk h
  by_cases hsound : (touches i s).sound
  · obtain ⟨x, rfl⟩ := of_touches_sound hsound
    cases h
    exact ⟨s.getReg x, k, rfl, fun _ => rfl, id, hk⟩
  · have hframe := exec_frame h
    obtain ⟨hk', hsp⟩ := hframe.stack hstack
    refine .of_unchanged hk ?_ (hframe.sound hsound) hk' hsp.le
    rw [exec_withHidden hstack hsound, h]
    rfl

/-- Fetching and decoding see neither field, so a whole step carries them along. -/
theorem step_carriesHidden (hk : AgreeBelow s.sp k s.stack) (h : step s = .next t) : CarriesHidden step s t v k := by
  rcases step_cases s with ⟨e, hs, he⟩ | ⟨e, hs, hf, he⟩ | ⟨i, hs, hf, he⟩ <;> rw [he] at h
  · cases h
    exact .of_unchanged hk (step_halted (s := s.withHidden v k) hs) rfl rfl le_rfl
  · cases h
    exact .of_unchanged hk (step_raise (s := s.withHidden v k) hs hf) rfl rfl le_rfl
  · obtain ⟨v', k', hexec, hkept⟩ := exec_carriesHidden (v := v) hk h
    exact ⟨v', k', (step_exec (s := s.withHidden v k) hs hf).trans hexec, hkept⟩

end CarriesHidden

/-- Settles O50: with the stack array replaced by itself, a step carries a replaced ST along. -/
theorem soundTimerIsNotReadable : Obligations.SoundTimerIsNotReadable := by
  unfold Obligations.SoundTimerIsNotReadable
  intro s t v h
  obtain ⟨w, k', hstep, _, hk', _⟩ := step_carriesHidden (v := v) (k := s.stack) (fun _ _ => rfl) h
  rw [hk' rfl] at hstep
  exact ⟨w, hstep⟩

/-- Settles O51: with ST replaced by itself, a step carries replaced stale entries along. -/
theorem staleStackEntriesAreNotReadable : Obligations.StaleStackEntriesAreNotReadable := by
  unfold Obligations.StaleStackEntriesAreNotReadable
  intro s t k hk h
  obtain ⟨v', k', hstep, hv', _, hagree⟩ := step_carriesHidden (v := s.st) hk h
  rw [hv' rfl] at hstep
  exact ⟨k', hstep, hagree⟩

/-! ## Calls undone by returns -/

/-- Settles O19: the return pops the entry the call pushed, and the call wrote no entry below SP. -/
theorem returnUndoesCall : Obligations.ReturnUndoesCall := by
  unfold Obligations.ReturnUndoesCall
  intro nnn s hsp
  obtain ⟨j, hj⟩ := Fin.exists_castSucc_eq.2 hsp
  refine ⟨_, _, exec_call_push hj.symm nnn, exec_ret_pop rfl, ?_, fun l hl => ?_⟩
  · simp [hj]
  · have hne : j.val ≠ l.val := by
      rw [← hj, Fin.val_castSucc] at hl
      omega
    simp [hne]

/-! ## Which forms write which state -/

/-- Settles O47: I is in the footprint of these forms alone. -/
theorem writersOfIndex : Obligations.WritersOfIndex := by
  unfold Obligations.WritersOfIndex
  intro i s t h hne
  exact of_touches_index (not_imp_comm.1 (exec_frame h).index hne)

/-- Settles O48: each piece of state is in the footprint of the named forms alone. -/
theorem writersOfStackTimersScreenMemory : Obligations.WritersOfStackTimersScreenMemory := by
  unfold Obligations.WritersOfStackTimersScreenMemory
  intro i s t h
  have hframe := exec_frame h
  refine ⟨fun hne => of_touches_stack (not_imp_comm.1 hframe.stack (not_and_or.2 hne)),
    fun hne => of_touches_delay (not_imp_comm.1 hframe.delay hne),
    fun hne => of_touches_sound (not_imp_comm.1 hframe.sound hne),
    fun hne => of_touches_screen (not_imp_comm.1 hframe.screen hne), ?_⟩
  rintro ⟨a, hne⟩
  exact of_touches_cells (not_imp_comm.1 (hframe.mem a) hne)

/-- Settles O49: VF is in the footprint of these forms alone. -/
theorem writersOfVf : Obligations.WritersOfVf := by
  unfold Obligations.WritersOfVf
  intro i s t h hne
  exact of_touches_vf (not_imp_comm.1 ((exec_frame h).regs 15) hne)

/-- Settles O54: the footprints of these forms are Vx and VF. -/
theorem flagFormsFrame : Obligations.FlagFormsFrame := by
  unfold Obligations.FlagFormsFrame
  intro x y s t
  constructor
  · rintro (h | h | h | h | h) <;> exact exec_frame h
  · rintro (h | h | h) <;> exact exec_frame h

/-! ## The configuration and the key snapshot -/

/-- A step changes neither the configuration nor the keys (R39, R41). -/
theorem step_keeps_quirks_keys {s t : State} (h : step s = .next t) : t.quirks = s.quirks ∧ t.keys = s.keys := by
  rcases step_cases s with ⟨e, _, he⟩ | ⟨e, _, _, he⟩ | ⟨i, _, _, he⟩ <;> rw [he] at h
  · cases h
    exact ⟨rfl, rfl⟩
  · cases h
    exact ⟨rfl, rfl⟩
  · exact ⟨(exec_frame h).quirks, (exec_frame h).keys⟩

/-- No command changes the configuration, and only `set_key_state` changes the keys (R39, R41, R362). -/
theorem applyCommand_keeps_quirks_keys {c : Command} {s t : State} (h : applyCommand c s = .next t) :
    t.quirks = s.quirks ∧ ((∀ k p, c ≠ .setKeyState k p) → t.keys = s.keys) := by
  cases c with
  | load bytes =>
    simp only [applyCommand] at h
    rcases load_cases bytes s with ⟨_, _, hl⟩ | ⟨_, _, hl⟩ | ⟨_, hl⟩ <;> rw [hl] at h <;> cases h
    · exact ⟨rfl, fun _ => rfl⟩
    · exact ⟨rfl, fun _ => rfl⟩
  | step =>
    obtain ⟨hquirks, hkeys⟩ := step_keeps_quirks_keys h
    exact ⟨hquirks, fun _ => hkeys⟩
  | tickTimers =>
    cases h
    exact ⟨rfl, fun _ => rfl⟩
  | setKeyState k p =>
    simp only [applyCommand] at h
    rcases setKeyState_cases k p s with ⟨_, hk⟩ | ⟨_, hk⟩ <;> rw [hk] at h <;> cases h
    exact ⟨rfl, fun hno => absurd rfl (hno k p)⟩

/-- What each command of a run keeps holds after the run. -/
theorem runCommands_induct_mem (P : State → Prop) {cs : List Command}
    (hstep : ∀ c ∈ cs, ∀ s t, P s → applyCommand c s = .next t → P t) {s t : State} (hs : P s)
    (h : runCommands cs s = .next t) : P t := by
  induction cs generalizing s with
  | nil =>
    cases h
    exact hs
  | cons c cs ih =>
    simp only [runCommands] at h
    split at h
    · next u hu =>
      exact ih (fun d hd => hstep d (List.mem_cons_of_mem c hd)) (hstep c List.mem_cons_self s u hs hu) h
    · cases h
    · cases h

/-- Settles O46: each command keeps the configuration, and every command but `set_key_state` the keys. -/
theorem configurationNeverChanges : Obligations.ConfigurationNeverChanges := by
  unfold Obligations.ConfigurationNeverChanges
  intro cs s t h
  refine ⟨runCommands_induct (·.quirks = s.quirks) (fun c u w hu hw => ?_) cs s t rfl h, fun hno => ?_⟩
  · exact (applyCommand_keeps_quirks_keys hw).1.trans hu
  · refine runCommands_induct_mem (·.keys = s.keys) (fun c hc u w hu hw => ?_) rfl h
    exact ((applyCommand_keeps_quirks_keys hw).2 fun k p e => hno k p (e ▸ hc)).trans hu

/-! ## Construction and the register view of the configuration -/

/-- The byte of a configuration names that configuration (R41): computed for each of the 128. -/
theorem quirksOfQcfg_qcfgOfQuirks (q : Quirks) : quirksOfQcfg (qcfgOfQuirks q) = some q := by
  rcases q with ⟨_ | _, _ | _, _ | _, _ | _, _ | _, _ | _, _ | _⟩ <;> rfl

/-- The configuration a byte names has that byte (R41): computed for each of the 256. -/
theorem qcfgOfQuirks_of_quirksOfQcfg : ∀ b : Byte, ∀ q ∈ quirksOfQcfg b, qcfgOfQuirks q = b := by decide

theorem newCore_qcfgOfQuirks (q : Quirks) : newCore (qcfgOfQuirks q) = .next (State.construct q) := by
  simp only [newCore, quirksOfQcfg_qcfgOfQuirks]

/-- Settles O45: a byte with bit 7 clear names one configuration, whose byte it is; no command changes it. -/
theorem qcfgLayout : Obligations.QcfgLayout := by
  unfold Obligations.QcfgLayout
  refine ⟨fun b h => ?_, fun b h => ?_, fun c s t h => (applyCommand_keeps_quirks_keys h).1⟩
  · have hq : quirksOfQcfg b = none := if_pos h
    simp only [newCore, hq]
  · obtain ⟨q, hq⟩ : ∃ q, quirksOfQcfg b = some q := ⟨_, if_neg (by simpa using h)⟩
    refine ⟨State.construct q, by simp only [newCore, hq], qcfgOfQuirks_of_quirksOfQcfg b q hq, ?_⟩
    simp only [quirksOfQcfg, h, Bool.false_eq_true, if_false, Option.some.injEq] at hq
    subst hq
    simp [State.construct]

/-- Settles O12: construction lists no cell of memory, runs, and stands before `load`. -/
theorem constructionMeetsInvariant : Obligations.ConstructionMeetsInvariant := by
  unfold Obligations.ConstructionMeetsInvariant
  intro q
  exact { mem_wf := rfl, status_ok := fun _ => nofun, boot_ok := ⟨rfl, rfl⟩ }

/-- Settles O43: the byte of a configuration constructs its CORE, whose memory reads as the font and zeros. -/
theorem constructionValues : Obligations.ConstructionValues := by
  unfold Obligations.ConstructionValues
  intro q
  refine ⟨State.construct q, newCore_qcfgOfQuirks q, fun r => ?_, rfl, rfl, rfl, fun k => ?_, rfl, rfl,
    fun c r => ?_, fun k => ?_, rfl, rfl, fun a ha => ?_, ?_⟩
  · simp [State.getReg, State.construct]
  · simp [State.construct]
  · exact pixel_blankScreen (c, r)
  · simp [State.construct]
  · exact unlistedByte_of_ge ha
  · rfl

end Sys2Proof.Machine

/-! PROOFS. Memory (20_memory.md): how a step ends and that it keeps the invariant; the fetch; what `load` writes; under
`WRAP` no address is out of range; stored code is fetched. -/

namespace Sys2Proof.Machine

/-! ## Every step keeps the invariant -/

/-- A running CORE in canonical form whose last step answered no error meets the invariant. -/
theorem State.Inv.of_running {s : State} {r : StepResult} (hmem : s.mem.wf = true) (hs : s.status = .running)
    (hp : s.progress = .stepped r) (hr : ∀ e, r ≠ .err e) : s.Inv where
  mem_wf := hmem
  status_ok := by simpa only [State.statusOk, hs, hp, ne_eq, Progress.stepped.injEq] using hr
  boot_ok := by simp only [State.bootOk, hp]

/-- So does a halted one whose last step answered its error, raised at its pc and with its cause still there. -/
theorem State.Inv.of_halted {s : State} {e : ErrorRecord} (hmem : s.mem.wf = true) (hs : s.status = .halted e)
    (hp : s.progress = .stepped (.err e)) (hshaped : e.shaped) (hpc : e.pc = s.pc) (hcause : s.showsCause e.kind) :
    s.Inv where
  mem_wf := hmem
  status_ok := by simpa only [State.statusOk, hs] using ⟨hshaped, hpc, hcause, .inr hp⟩
  boot_ok := by simp only [State.bootOk, hp]

/-- The record of a halted CORE that meets the invariant (R301, R303). -/
theorem State.Inv.record {s : State} {e : ErrorRecord} (h : s.Inv) (hs : s.status = .halted e) :
    e.shaped ∧ e.pc = s.pc ∧ s.showsCause e.kind := by
  have hok := h.status_ok
  simp only [State.statusOk, hs] at hok
  obtain ⟨hshaped, hpc, hcause, _⟩ := hok
  exact ⟨hshaped, hpc, hcause⟩

/-- How a step ends: the recorded error again on a halted CORE; on a running one a commit, a block, or a new error
whose record has the fields of R301, the CORE's own pc, and the cause R300 gives its kind. -/
theorem step_outcomes (s : State) :
    (∃ e, s.status = .halted e ∧ step s = reportHalt e s) ∨
      (s.status = .running ∧
        ((∃ s', step s = commit s' ∧ Committed s s') ∨ step s = block s ∨
          ∃ e, step s = raise e s ∧ e.shaped ∧ e.pc = s.pc ∧ s.showsCause e.kind)) := by
  rcases step_cases s with hhalted | ⟨e, hrun, hfetch, hstep⟩ | ⟨i, hrun, _, hstep⟩
  · exact .inl hhalted
  · exact .inr ⟨hrun, .inr (.inr ⟨e, hstep, State.fetchDecode_error_shaped hfetch⟩)⟩
  · refine .inr ⟨hrun, ?_⟩
    rw [hstep]
    rcases exec_cases i s with hcommit | ⟨hblock, _⟩ | ⟨k, a, hraise, hcause⟩
    · exact .inl hcommit
    · exact .inr (.inl hblock)
    · exact .inr (.inr ⟨insnError k i a s, hraise, hcause.shaped.1, rfl, hcause.shaped.2⟩)

/-- Settles O13: a step that commits or blocks leaves the CORE running; one that raises or reports leaves it halted with
the record it answers. -/
theorem stepKeepsInvariant : Obligations.StepKeepsInvariant := by
  unfold Obligations.StepKeepsInvariant
  intro s hs
  rcases step_outcomes s with ⟨e, hhalted, h⟩ | ⟨hrun, ⟨s', h, hc⟩ | h | ⟨e, h, hshaped, hpc, hcause⟩⟩
  · obtain ⟨hshaped, hpc, hcause⟩ := hs.record hhalted
    exact ⟨_, h, .of_halted hs.mem_wf hhalted rfl hshaped hpc hcause⟩
  · exact ⟨_, h, .of_running (hc.mem hs.mem_wf) (hc.status.trans hrun) rfl fun _ => nofun⟩
  · exact ⟨_, h, .of_running hs.mem_wf hrun rfl fun _ => nofun⟩
  · exact ⟨_, h, .of_halted hs.mem_wf rfl rfl hshaped hpc hcause⟩

/-! ## The fetch -/

/-- Settles O7: where both reads raise nothing, each reaches the cell of its address modulo 4096. -/
theorem fetchIsBigEndian : Obligations.FetchIsBigEndian := by
  unfold Obligations.FetchIsBigEndian
  exact fun s h => State.fetchWord_ok h

/-- Settles O8: the failing fetch is the error of the step; every other fetch gives the word at pc. -/
theorem fetchBeyondMemoryRaises : Obligations.FetchBeyondMemoryRaises := by
  unfold Obligations.FetchBeyondMemoryRaises
  refine ⟨fun s hrun hfault hpc => ?_, fun s h => ⟨_, State.fetchWord_ok h⟩⟩
  have hfetch := State.fetchDecode_of_error (State.fetchWord_error hfault hpc)
  exact (step_raise hrun hfetch).trans (raise_eq _ s)

/-! ## The loader -/

/-- Settles O42: each of the three answers of `load` stands under its own hypothesis; after the too long program the
step finds the CORE halted. -/
theorem loadWritesProgram : Obligations.LoadWritesProgram := by
  unfold Obligations.LoadWritesProgram
  intro bytes s
  rcases load_cases bytes s with ⟨hp, hlen, h⟩ | ⟨hp, hlen, h⟩ | ⟨hp, h⟩
  · exact ⟨fun _ _ => ⟨_, h, rfl, Memory.read_writeRange s.mem 0x200 bytes⟩,
      fun _ hlong => absurd hlong (Nat.not_lt.2 hlen), absurd hp⟩
  · exact ⟨fun _ hfits => absurd hlen (Nat.not_lt.2 hfits), fun _ _ => ⟨_, h, rfl, step_halted rfl⟩, absurd hp⟩
  · exact ⟨fun hc => absurd hc hp, fun hc => absurd hc hp, fun _ => h⟩

/-! ## No address is out of range under `WRAP` -/

/-- A command that changes `STATUS` halts the CORE, and on an out-of-range address under `FAULT` alone (R71, R300). -/
theorem applyCommand_status {c : Command} {s t : State} (h : applyCommand c s = .next t) :
    t.status = s.status ∨
      ∃ e, t.status = .halted e ∧ (e.kind = .memoryOutOfBounds → s.quirks.memEdge = .fault) := by
  cases c with
  | load bytes =>
    simp only [applyCommand] at h
    rcases load_cases bytes s with ⟨_, _, hl⟩ | ⟨_, _, hl⟩ | ⟨_, hl⟩ <;> rw [hl] at h <;> cases h
    · exact .inl rfl
    · exact .inr ⟨romTooLarge, rfl, nofun⟩
  | step =>
    simp only [applyCommand] at h
    rcases step_outcomes s with ⟨e, _, hs⟩ | ⟨_, ⟨s', hs, hc⟩ | hs | ⟨e, hs, _, _, hcause⟩⟩ <;> rw [hs] at h <;>
      cases h
    · exact .inl rfl
    · exact .inl hc.status
    · exact .inl rfl
    · exact .inr ⟨e, rfl, fun hk => by rwa [hk] at hcause⟩
  | tickTimers =>
    cases h
    exact .inl rfl
  | setKeyState k p =>
    simp only [applyCommand] at h
    rcases setKeyState_cases k p s with ⟨_, hk⟩ | ⟨_, hk⟩ <;> rw [hk] at h <;> cases h
    exact .inl rfl

/-- The CORE wraps addresses and has not halted on an out-of-range one. -/
def State.WrapsInRange (s : State) : Prop :=
  s.quirks.memEdge = .wrap ∧ ∀ e, s.status = .halted e → e.kind ≠ .memoryOutOfBounds

theorem applyCommand_keeps_wrapsInRange (c : Command) (s t : State) (hs : s.WrapsInRange)
    (h : applyCommand c s = .next t) : t.WrapsInRange := by
  obtain ⟨hwrap, hkind⟩ := hs
  refine ⟨(applyCommand_keeps_quirks_keys h).1 ▸ hwrap, fun e he => ?_⟩
  rcases applyCommand_status h with hsame | ⟨e', he', hfault⟩
  · exact hkind e (hsame ▸ he)
  · obtain rfl : e' = e := Status.halted.inj (he'.symm.trans he)
    exact fun hk => nomatch hwrap.symm.trans (hfault hk)

/-- Settles O52: by induction over the commands. -/
theorem wrapNeverRunsOutOfBounds : Obligations.WrapNeverRunsOutOfBounds := by
  unfold Obligations.WrapNeverRunsOutOfBounds
  intro cs s t e hwrap hrun h
  have hs : s.WrapsInRange := ⟨hwrap, fun e he => nomatch hrun.symm.trans he⟩
  exact (runCommands_induct State.WrapsInRange applyCommand_keeps_wrapsInRange cs s t hs h).2 e

/-! ## Stored code is fetched -/

/-- A store whose addresses all exist answers a memory in which every cell holds its byte (R71, R73). -/
theorem State.memWriteBytes_stores {s : State} {bs : List Byte} (hlen : bs.length ≤ Config.memSize)
    (hr : s.inRange bs.length) :
    ∃ m, s.memWriteBytes s.base bs = .ok m ∧ ∀ a, s.holdsAfterStore bs a (m.read a) := by
  obtain ⟨m, hm, _⟩ := Memory.writeBytes_ok (m := s.mem) hr hlen
  exact ⟨m, hm, State.memWriteBytes_holds hlen hm⟩

theorem exec_ldMemVx_ok {x : RegIdx} {s : State} {m : Memory} (h : s.memWriteBytes s.base (s.regsUpTo x) = .ok m) :
    exec (.ldMemVx x) s = commit ((s.advance.setMem m).setIndex (s.indexAfter x)) := by
  simp only [exec, execLdMemVx, h]

theorem exec_ldBVx_ok {x : RegIdx} {s : State} {m : Memory}
    (h : s.memWriteBytes s.base (bcdDigits (s.getReg x)) = .ok m) :
    exec (.ldBVx x) s = commit (s.advance.setMem m) := by
  simp only [exec, execLdBVx, h]

/-- Settles O33: both stores commit the memory in which every cell holds its byte, and the fetch reads two of its
cells. -/
theorem storedCodeIsFetchedNext : Obligations.StoredCodeIsFetchedNext := by
  unfold Obligations.StoredCodeIsFetchedNext
  intro x s i bs hi hr hpc
  have hlen : bs.length ≤ Config.memSize := by
    rcases hi with ⟨_, rfl⟩ | ⟨_, rfl⟩
    · exact (List.length_take_le' _ _).trans (by simp [Config.memSize])
    · simp [Config.memSize]
  obtain ⟨m, hm, hholds⟩ := State.memWriteBytes_stores hlen hr
  obtain ⟨t, ht, htpc, htquirks, htmem⟩ :
      ∃ t, exec i s = .next t ∧ t.pc = s.pc + 2 ∧ t.quirks = s.quirks ∧ t.mem = m := by
    rcases hi with ⟨rfl, rfl⟩ | ⟨rfl, rfl⟩
    · exact ⟨_, exec_ldMemVx_ok hm, rfl, rfl, rfl⟩
    · exact ⟨_, exec_ldBVx_ok hm, rfl, rfl, rfl⟩
  have hfetch := State.fetchWord_ok (s := t) (by rwa [htquirks, htpc])
  rw [htpc, htmem] at hfetch
  exact ⟨t, _, _, ht, htpc, hfetch, hholds _, hholds _⟩

end Sys2Proof.Machine

/-! PROOFS. Encoding (30_encoding.md): the decoder undoes the encoder and the encoder the decoder; the decoder is the
first matching row of the opcode map; the words with no form; the step that runs what its word decodes to. -/

namespace Sys2Proof

/-! ## When a word is a format's word of its own fields -/

theorem encNNN_eq_iff {op : Nibble} {w : Word} : encNNN op (nnnField w) = w ↔ opField w = op := by
  constructor
  · intro h
    rw [← h, opField_encNNN]
  · rintro rfl
    exact encNNN_fields w

theorem encXNN_eq_iff {op : Nibble} {nn : Byte} {w : Word} :
    encXNN op (xField w) nn = w ↔ opField w = op ∧ nnField w = nn := by
  constructor
  · intro h
    rw [← h, opField_encXNN, nnField_encXNN]
    exact ⟨rfl, rfl⟩
  · rintro ⟨rfl, rfl⟩
    exact encXNN_fields w

theorem encXYN_eq_iff {op n : Nibble} {w : Word} :
    encXYN op (xField w) (yField w) n = w ↔ opField w = op ∧ nField w = n := by
  constructor
  · intro h
    rw [← h, opField_encXYN, nField_encXYN]
    exact ⟨rfl, rfl⟩
  · rintro ⟨rfl, rfl⟩
    exact encXYN_fields w

/-! ## The two ill-formed terms -/

theorem wellFormed_eq_false_iff {i : Instr} : i.wellFormed = false ↔ i = .sys 0x0E0 ∨ i = .sys 0x0EE := by
  cases i
  case sys nnn => simp [Instr.wellFormed, Decidable.or_iff_not_imp_left]
  all_goals simp [Instr.wellFormed]

/-- Outside the words `00E0` and `00EE` of the first two rows every term is well formed. -/
theorem wellFormed_of_encode_ne {i : Instr} (hcls : encode i ≠ 0x00E0#16) (hret : encode i ≠ 0x00EE#16) :
    i.wellFormed = true := by
  rw [← Bool.not_eq_false, wellFormed_eq_false_iff]
  rintro (rfl | rfl)
  · exact hcls rfl
  · exact hret rfl

/-! ## The decoder undoes the encoder -/

theorem decodeGroup0_encNNN {nnn : Imm12} (h : (Instr.sys nnn).wellFormed = true) :
    decodeGroup0 (encNNN 0x0#4 nnn) = .sys nnn := by
  simp only [Instr.wellFormed, Bool.and_eq_true, bne_iff_ne] at h
  obtain ⟨hnnn0, hnnnE⟩ := h
  have hcls : encNNN 0x0#4 nnn ≠ 0x00E0#16 :=
    fun e => hnnn0 ((nnnField_encNNN _ nnn).symm.trans (congrArg nnnField e))
  have hret : encNNN 0x0#4 nnn ≠ 0x00EE#16 :=
    fun e => hnnnE ((nnnField_encNNN _ nnn).symm.trans (congrArg nnnField e))
  rw [decodeGroup0, if_neg hcls, if_neg hret, nnnField_encNNN]

/-- Settles O1: each field of an instruction's word reads back as its operand. -/
theorem decodeOfEncodeIsTheInstruction : Obligations.DecodeOfEncodeIsTheInstruction := by
  unfold Obligations.DecodeOfEncodeIsTheInstruction
  intro i hi
  cases i
  case cls => rfl
  case ret => rfl
  case sys nnn => simp only [encode, decodeWord, opField_encNNN, decodeGroup0_encNNN hi]
  all_goals simp [encode, decodeWord, decodeGroup8, decodeGroupF]

/-! ## The encoder undoes the decoder -/

theorem encode_decodeGroup0 {w : Word} (hop : opField w = 0x0#4) : encode (decodeGroup0 w) = w := by
  simp only [decodeGroup0]
  split
  · next h => exact h.symm
  split
  · next h => exact h.symm
  · exact encNNN_eq_iff.2 hop

theorem wellFormed_decodeGroup0 {w : Word} (hop : opField w = 0x0#4) : (decodeGroup0 w).wellFormed = true := by
  by_cases hcls : w = 0x00E0#16
  · subst hcls; rfl
  by_cases hret : w = 0x00EE#16
  · subst hret; rfl
  have hw := encode_decodeGroup0 hop
  exact wellFormed_of_encode_ne (hw.trans_ne hcls) (hw.trans_ne hret)

theorem encode_of_decodeGroup8 {w : Word} {i : Instr} (hop : opField w = 0x8#4) (h : decodeGroup8 w = .ok i) :
    encode i = w ∧ i.wellFormed = true := by
  simp only [decodeGroup8] at h
  split at h <;> cases h
  all_goals next hn => exact ⟨encXYN_eq_iff.2 ⟨hop, hn⟩, rfl⟩

theorem encode_of_decodeGroupF {w : Word} {i : Instr} (hop : opField w = 0xF#4) (h : decodeGroupF w = .ok i) :
    encode i = w ∧ i.wellFormed = true := by
  simp only [decodeGroupF] at h
  split at h <;> cases h
  all_goals next hnn => exact ⟨encXNN_eq_iff.2 ⟨hop, hnn⟩, rfl⟩

/-- Settles O2: by the groups of the decoder; case `h_k` is the one of `op` k - 1. -/
theorem encodeOfDecodeIsTheWord : Obligations.EncodeOfDecodeIsTheWord := by
  unfold Obligations.EncodeOfDecodeIsTheWord
  intro w i h
  simp only [decodeWord] at h
  split at h
  case h_1 hop => cases h; exact ⟨encode_decodeGroup0 hop, wellFormed_decodeGroup0 hop⟩
  case h_2 hop | h_3 hop | h_11 hop | h_12 hop => cases h; exact ⟨encNNN_eq_iff.2 hop, rfl⟩
  case h_4 hop | h_5 hop | h_7 hop | h_8 hop | h_13 hop => cases h; exact ⟨encXNN_eq_iff.2 ⟨hop, rfl⟩, rfl⟩
  case h_6 hop | h_10 hop =>
    split at h <;> cases h
    next hn => exact ⟨encXYN_eq_iff.2 ⟨hop, hn⟩, rfl⟩
  case h_9 hop => exact encode_of_decodeGroup8 hop h
  case h_14 hop => cases h; exact ⟨encXYN_eq_iff.2 ⟨hop, rfl⟩, rfl⟩
  case h_15 hop =>
    split at h
    · next hnn => cases h; exact ⟨encXNN_eq_iff.2 ⟨hop, hnn⟩, rfl⟩
    split at h <;> cases h
    next hnn => exact ⟨encXNN_eq_iff.2 ⟨hop, hnn⟩, rfl⟩
  case h_16 =>
    have hop : opField w = 0xF#4 := by have := nibble_cases (opField w); simp_all
    exact encode_of_decodeGroupF hop h

/-! ## The words with no form -/

theorem decodeGroup8_error_iff {w : Word} : (∃ e, decodeGroup8 w = .error e) ↔
    nField w ∈ [0x8#4, 0x9#4, 0xA#4, 0xB#4, 0xC#4, 0xD#4, 0xF#4] := by
  simp only [decodeGroup8]
  rcases nibble_cases (nField w) with h | h | h | h | h | h | h | h | h | h | h | h | h | h | h | h <;> simp [h]

theorem decodeGroupF_error_iff {w : Word} : (∃ e, decodeGroupF w = .error e) ↔
    nnField w ∉ [0x07#8, 0x0A#8, 0x15#8, 0x18#8, 0x1E#8, 0x29#8, 0x33#8, 0x55#8, 0x65#8] := by
  simp only [decodeGroupF]
  split
  case h_10 => simp_all
  all_goals simp [*]

theorem ite_ok_error_iff {ε α : Type} {c : Prop} [Decidable c] {a : α} {r : ε} :
    (∃ e, (if c then Except.ok a else .error r) = .error e) ↔ ¬ c := by
  split <;> simp [*]

/-- Settles O4: a group that can refuse refuses in its space of R105, and every other group gives a form; case `h_k` is
the one of `op` k - 1. -/
theorem illegalWordsAreFiveSpaces : Obligations.IllegalWordsAreFiveSpaces := by
  unfold Obligations.IllegalWordsAreFiveSpaces
  intro w
  simp only [decodeWord]
  split
  case h_6 hop | h_10 hop => simp [hop, ite_ok_error_iff]
  case h_9 hop => simp [hop, decodeGroup8_error_iff]
  case h_15 hop =>
    split
    · next hnn => simp [hop, hnn]
    · next hnn => simp [hop, hnn, ite_ok_error_iff]
  case h_16 =>
    have hop : opField w = 0xF#4 := by have := nibble_cases (opField w); simp_all
    simp [hop, decodeGroupF_error_iff]
  all_goals next hop => simp [hop]

/-! ## The rows of the opcode map -/

/-- A row matches exactly the words that its own form has, read back from the word. -/
theorem accepts_iff_encode_form (w : Word) :
    ∀ r ∈ opcodeRows, (r.accepts w = true ↔ encode (r.form w) = w) := by
  have all (v : Word) : w &&& 0xFFFF#16 = v ↔ v = w := (and_FFFF_eq_iff w v).trans eq_comm
  have op := and_F000_eq_iff w
  have opN := and_F00F_eq_iff w
  have opNN := and_F0FF_eq_iff w
  simp only [opcodeRows, opcodeRowsA, opcodeRowsB, opcodeRowsC, opcodeRowsD, List.cons_append, List.nil_append,
    List.forall_mem_cons, OpcodeRow.accepts, beq_iff_eq, encode, encNNN_eq_iff, encXNN_eq_iff, encXYN_eq_iff, and_true]
  exact ⟨all 0x00E0, all 0x00EE, op 0x0, op 0x1, op 0x2, op 0x3, op 0x4, opN 0x5 0x0, op 0x6, op 0x7,
    opN 0x8 0x0, opN 0x8 0x1, opN 0x8 0x2, opN 0x8 0x3, opN 0x8 0x4, opN 0x8 0x5, opN 0x8 0x6, opN 0x8 0x7, opN 0x8 0xE,
    opN 0x9 0x0, op 0xA, op 0xB, op 0xC, op 0xD, opNN 0xE 0x9E, opNN 0xE 0xA1,
    opNN 0xF 0x07, opNN 0xF 0x0A, opNN 0xF 0x15, opNN 0xF 0x18, opNN 0xF 0x1E, opNN 0xF 0x29, opNN 0xF 0x33,
    opNN 0xF 0x55, opNN 0xF 0x65, nofun⟩

/-- The forms' constructors stand in the order of the rows, so a constructor's index is its row's place. -/
theorem ctorIdx_forms (w : Word) :
    opcodeRows.map (fun r => (r.form w).ctorIdx) = List.range opcodeRows.length := rfl

theorem ctorIdx_form (w : Word) (j : Fin opcodeRows.length) : (opcodeRows[j].form w).ctorIdx = j.val := by
  simpa using List.getElem_of_eq (ctorIdx_forms w) (i := j.val) (by simp)

/-- The row of a form's own place reads the form back from its word. -/
theorem exists_row_form_encode (i : Instr) : ∃ r ∈ opcodeRows, r.form (encode i) = i := by
  suffices h : ∃ r, opcodeRows[i.ctorIdx]? = some r ∧ r.form (encode i) = i by
    obtain ⟨r, hr, hi⟩ := h
    exact ⟨r, List.mem_of_getElem? hr, hi⟩
  cases i <;> exact ⟨_, rfl, by simp [encode]⟩

theorem decodeWord_toOption_eq_decodeByTable (w : Word) : (decodeWord w).toOption = decodeByTable w := by
  by_cases hcls : w = 0x00E0#16
  · subst hcls; rfl
  by_cases hret : w = 0x00EE#16
  · subst hret; rfl
  cases hfind : opcodeRows.find? (·.accepts w) with
  | none =>
    cases hdec : decodeWord w with
    | error e => simp [decodeByTable, hfind, Except.toOption]
    | ok i =>
      obtain ⟨r, hr, hform⟩ := exists_row_form_encode i
      obtain ⟨hw, _⟩ := encodeOfDecodeIsTheWord w i hdec
      rw [hw] at hform
      have hacc : r.accepts w = true := (accepts_iff_encode_form w r hr).2 (hform ▸ hw)
      exact absurd hacc (List.find?_eq_none.1 hfind r hr)
  | some r =>
    have hacc : r.accepts w = true := List.find?_some (p := fun r : OpcodeRow => r.accepts w) hfind
    have hw := (accepts_iff_encode_form w r (List.mem_of_find?_eq_some hfind)).1 hacc
    have hdec := decodeOfEncodeIsTheInstruction _ (wellFormed_of_encode_ne (hw.trans_ne hcls) (hw.trans_ne hret))
    rw [hw] at hdec
    simp [decodeByTable, hfind, hdec, Except.toOption]

/-- A word that a row matches decodes to the form in that row's place, or, where the row is that of `0NNN`, to one of
the two earlier rows' (R104). -/
theorem decodeWord_of_accepts {w : Word} {j : Fin opcodeRows.length} (h : opcodeRows[j].accepts w = true) :
    ∃ i, decodeWord w = .ok i ∧ (i.ctorIdx = j.val ∨ (i.ctorIdx < 2 ∧ j.val = 2)) := by
  have hw : encode (opcodeRows[j].form w) = w := (accepts_iff_encode_form w _ (List.getElem_mem j.isLt)).1 h
  have hplace := ctorIdx_form w j
  generalize opcodeRows[j].form w = i at hw hplace
  cases hwf : i.wellFormed with
  | true => exact ⟨i, hw ▸ decodeOfEncodeIsTheInstruction i hwf, .inl hplace⟩
  | false =>
    rcases wellFormed_eq_false_iff.1 hwf with rfl | rfl
    · exact ⟨.cls, by rw [← hw]; rfl, .inr ⟨by decide, hplace.symm⟩⟩
    · exact ⟨.ret, by rw [← hw]; rfl, .inr ⟨by decide, hplace.symm⟩⟩

theorem rows_overlap {w : Word} {j k : Fin opcodeRows.length} (hlt : j < k) (hj : opcodeRows[j].accepts w = true)
    (hk : opcodeRows[k].accepts w = true) : j.val < 2 ∧ k.val = 2 := by
  obtain ⟨i, hi, hij⟩ := decodeWord_of_accepts hj
  obtain ⟨i', hi', hik⟩ := decodeWord_of_accepts hk
  obtain rfl : i = i' := Except.ok.inj (hi.symm.trans hi')
  rw [Fin.lt_def] at hlt
  omega

end Sys2Proof

namespace Sys2Proof.Machine

/-! ## The step -/

/-- A step that fetches a word with no form raises `InvalidOpcode` (R104, R301). -/
theorem step_undecodable {s : State} {w : Word} {r : Undecodable} (hrun : s.status = .running)
    (hw : s.fetchWord = .ok w) (hr : decodeWord w = .error r) :
    step s = .next (s.halted { kind := .invalidOpcode, pc := s.pc, word := some w, addr := none }) := by
  rw [step_raise hrun (State.fetchDecode_of_undecodable hw hr), raise_eq]

/-- Settles O3: the row of the decoded form's place is the one that matches; a word no row matches is undecodable. -/
theorem decodeIsFirstMatchingRow : Obligations.DecodeIsFirstMatchingRow := by
  unfold Obligations.DecodeIsFirstMatchingRow
  refine ⟨decodeWord_toOption_eq_decodeByTable, fun _ _ _ => rows_overlap, fun s w hrun hw hnone => ?_⟩
  rw [← decodeWord_toOption_eq_decodeByTable] at hnone
  cases hdec : decodeWord w with
  | ok i => simp [hdec, Except.toOption] at hnone
  | error r => exact step_undecodable hrun hw hdec

/-- Settles O5: the decoder, run on each word. -/
theorem sampleWordsDecode : Obligations.SampleWordsDecode := by
  unfold Obligations.SampleWordsDecode
  decide

/-- Settles O6: the fetch and decode of a step is `decodeWord` of the fetched word. -/
theorem stepRunsTheDecodedInstruction : Obligations.StepRunsTheDecodedInstruction := by
  unfold Obligations.StepRunsTheDecodedInstruction
  intro s w hrun hw
  exact ⟨fun i hi => step_exec hrun (State.fetchDecode_of_ok hw hi), fun r hr => step_undecodable hrun hw hr⟩

end Sys2Proof.Machine

/-! PROOFS. Control flow (40_control_flow.md): `SYS`, calls and returns, jumps and compare-and-skip, and their frames. -/

namespace Sys2Proof.Machine

/-! ## Jumps -/

/-- The literal and the byte added to it stay below 2^16, so R148's `mod 2^16` never acts. -/
theorem toNat_zext16_add_byte (nnn : Imm12) (b : Byte) :
    (zext16 nnn + b.setWidth 16).toNat = nnn.toNat + b.toNat := by
  simp only [zext16]
  bv_omega

/-- The register added is V0 or the one of the literal's high nibble, as `jump_reg` says (R148). -/
theorem jumpRegister_append {q : Quirks} {h : Nibble} {lo : Byte} {r : RegIdx} (hv0 : q.jumpReg = .v0 → r = 0)
    (hvx : q.jumpReg = .vx → r = h.toFin) : jumpRegister q (h ++ lo) = r := by
  simp only [jumpRegister]
  split
  · next hq => exact (hv0 hq).symm
  · next hq => rw [extract_append_high, hvx hq]

/-- Settles O21: the register added is R148's, and its byte cannot carry the sum to 2^16. -/
theorem jumpWithOffsetAddsRegister : Obligations.JumpWithOffsetAddsRegister := by
  unfold Obligations.JumpWithOffsetAddsRegister
  intro h lo s r hv0 hvx
  have hword : (0xB#4 ++ h ++ lo : Word) = encode (.jpV0 (h ++ lo)) := BitVec.append_assoc
  have hpc := toNat_zext16_add_byte (h ++ lo) (s.getReg r)
  refine ⟨hword ▸ decodeOfEncodeIsTheInstruction _ rfl, _, rfl, rfl, ?_⟩
  simp only [State.setProgress_pc, State.setPc_pc, jumpRegister_append hv0 hvx]
  exact ⟨hpc, by omega⟩

/-- Settles O17: the jump's pc replaces the advanced one. -/
theorem jumpSetsPc : Obligations.JumpSetsPc := by
  unfold Obligations.JumpSetsPc
  exact fun nnn s => ⟨decodeOfEncodeIsTheInstruction (.jp nnn) rfl, commit_eq (s.advance.setPc (zext16 nnn))⟩

/-! ## Calls, returns and `SYS` -/

/-- Settles O16: by the two answers of a return. -/
theorem retPopsIntoPc : Obligations.RetPopsIntoPc := by
  unfold Obligations.RetPopsIntoPc
  exact ⟨decodeOfEncodeIsTheInstruction .ret rfl, fun _ _ => exec_ret_pop,
    fun s h => (exec_ret_empty h).trans (raiseInsn_eq ..)⟩

/-- Settles O18: by the two answers of a call. -/
theorem callPushesReturnAddress : Obligations.CallPushesReturnAddress := by
  unfold Obligations.CallPushesReturnAddress
  exact fun nnn s => ⟨decodeOfEncodeIsTheInstruction (.call nnn) rfl, fun _ h => exec_call_push h nnn,
    fun h => (exec_call_full h nnn).trans (raiseInsn_eq ..)⟩

/-- Settles O15: without the literals of `00E0` and `00EE` the term is well formed, so its word decodes to it. -/
theorem sysRaisesInvalidOpcode : Obligations.SysRaisesInvalidOpcode := by
  unfold Obligations.SysRaisesInvalidOpcode
  intro nnn s hcls hret
  have hwf : (Instr.sys nnn).wellFormed = true := by simp [Instr.wellFormed, hcls, hret]
  exact ⟨decodeOfEncodeIsTheInstruction (.sys nnn) hwf, raiseInsn_eq .invalidOpcode (.sys nnn) none s⟩

/-! ## Skips -/

/-- A skip ends four bytes on where its condition holds, else two, and changes nothing but pc (R149). -/
theorem commit_advance_skipIf (s : State) (c : Bool) : commit (s.advance.skipIf c) =
    .next { s with pc := if c then s.pc + 4 else s.pc + 2, progress := .stepped .executed } := by
  cases c
  · rfl
  · have hpc : s.pc + 2 + 2 = s.pc + 4 := BitVec.add_assoc s.pc 2 2
    exact congrArg (fun v => commit (s.setPc v)) hpc

/-- `5XYn` and `9XYn` with n not 0 lie in spaces of R105 (R146, R147). -/
theorem decodeWord_encXYN_error {op n : Nibble} (x y : RegIdx) (hop : op = 0x5#4 ∨ op = 0x9#4) (hn : n ≠ 0) :
    ∃ e, decodeWord (encXYN op x y n) = .error e := by
  rw [illegalWordsAreFiveSpaces, opField_encXYN, nField_encXYN]
  exact hop.elim (fun h5 => .inl ⟨h5, hn⟩) fun h9 => .inr (.inl ⟨h9, hn⟩)

/-- Settles O20: each form is one skip, on its own comparison. -/
theorem skipsCompareAndSkipTwoBytes : Obligations.SkipsCompareAndSkipTwoBytes := by
  unfold Obligations.SkipsCompareAndSkipTwoBytes
  intro x y nn s
  simp only [word_eq_encXNN, word_eq_encXYN]
  refine ⟨decodeOfEncodeIsTheInstruction (.seImm x nn) rfl, decodeOfEncodeIsTheInstruction (.sneImm x nn) rfl,
    decodeOfEncodeIsTheInstruction (.seReg x y) rfl, decodeOfEncodeIsTheInstruction (.sneReg x y) rfl,
    fun n hn => ⟨decodeWord_encXYN_error x y (.inl rfl) hn, decodeWord_encXYN_error x y (.inr rfl) hn⟩, ?_, ?_, ?_, ?_⟩
  · simp [exec, execSeImm, commit_advance_skipIf]
  · simp [exec, execSneImm, commit_advance_skipIf]
  · simp [exec, execSeReg, commit_advance_skipIf]
  · simp [exec, execSneReg, commit_advance_skipIf]

/-! ## Frames -/

/-- Settles O55: jumps and skips have an empty footprint, `SYS` that of STATUS, calls and returns that of the stack and
STATUS. -/
theorem controlFormsFrame : Obligations.ControlFormsFrame := by
  unfold Obligations.ControlFormsFrame
  intro x y nn nnn s t
  refine ⟨?_, exec_frame, ?_⟩
  · rintro (h | h | h | h | h | h | h | h) <;> exact exec_frame h
  · rintro (h | h) <;> exact exec_frame h

end Sys2Proof.Machine

/-! PROOFS. Registers and arithmetic (41_registers_alu.md): the result and its flag, the values the arithmetic forms
write, the forms that write one register, and the random byte. -/

namespace Sys2Proof.Machine

/-! ## Results and flags -/

/-- Settles O22: the two writes leave everything but the registers, and those as `doubleWrite` says. -/
theorem resultAndFlagOrder : Obligations.ResultAndFlagOrder := by
  unfold Obligations.ResultAndFlagOrder
  exact fun s x v f => ⟨s.writeResultAndFlag_eq x v f, s.getReg_writeResultAndFlag x v f⟩

/-- How a form that writes a result and a flag ends: pc two bytes on, and the registers as R170 says. -/
theorem commit_advance_writeResultAndFlag (s : State) (x : RegIdx) (v f : Byte) :
    ∃ t, commit (s.advance.writeResultAndFlag x v f) = .next t ∧
      t = { s with regs := t.regs, pc := s.pc + 2, progress := .stepped .executed } ∧
      ∀ r, t.getReg r = doubleWrite s x v f r := by
  refine ⟨_, rfl, ?_, s.advance.getReg_writeResultAndFlag x v f⟩
  rw [State.writeResultAndFlag_eq]
  rfl

/-- How a bitwise form ends: pc two bytes on, Vx written, and VF <- 0 with it under `vf_reset = ON` alone (R174 to
R176). -/
theorem commit_advance_writeLogical (s : State) (x : RegIdx) (v : Byte) :
    ∃ t, commit (s.advance.writeLogical x v) = .next t ∧
      t = { s with regs := t.regs, pc := s.pc + 2, progress := .stepped .executed } ∧
      (s.quirks.vfReset = .off → ∀ r, t.getReg r = if r = x then v else s.getReg r) ∧
      (s.quirks.vfReset = .on → ∀ r, t.getReg r = doubleWrite s x v 0 r) := by
  refine ⟨_, rfl, ?_, fun hoff => State.getReg_writeLogical_off (s := s.advance) hoff x v,
    fun hon => State.getReg_writeLogical_on (s := s.advance) hon x v⟩
  rw [State.writeLogical_eq]
  rfl

/-- Settles O24: the three forms differ in the byte they give to the one bitwise write. -/
theorem logicalFormsAndVfReset : Obligations.LogicalFormsAndVfReset := by
  unfold Obligations.LogicalFormsAndVfReset
  intro x y s i v hform
  simp only [word_eq_encXYN]
  refine ⟨decodeOfEncodeIsTheInstruction (.orReg x y) rfl, decodeOfEncodeIsTheInstruction (.andReg x y) rfl,
    decodeOfEncodeIsTheInstruction (.xorReg x y) rfl, ?_⟩
  rcases hform with ⟨rfl, rfl⟩ | ⟨rfl, rfl⟩ | ⟨rfl, rfl⟩ <;> exact commit_advance_writeLogical s x _

/-! ## Sums and differences -/

/-- A sum of bytes is the exact sum modulo 256. -/
theorem add_eq_ofNat_mod (a b : Byte) : a + b = BitVec.ofNat 8 ((a.toNat + b.toNat) % 256) := by
  apply BitVec.eq_of_toNat_eq
  simp

/-- A difference of bytes is the exact difference modulo 256. -/
theorem sub_eq_ofInt_mod (a b : Byte) : a - b = BitVec.ofInt 8 (((a.toNat : Int) - (b.toNat : Int)) % 256) := by
  apply BitVec.eq_of_toNat_eq
  simp only [BitVec.toNat_sub, BitVec.toNat_ofInt]
  omega

theorem carry_eq_ite (a b : Byte) : carry a b = if a.toNat + b.toNat > 255 then 1 else 0 := by
  simp [carry, flagByte]

theorem noBorrow_eq_ite (a b : Byte) : noBorrow a b = if a.toNat ≥ b.toNat then 1 else 0 := by
  simp [noBorrow, flagByte]

/-- Settles O25: the byte written is the sum modulo 256 and the flag its carry. -/
theorem addSetsCarry : Obligations.AddSetsCarry := by
  unfold Obligations.AddSetsCarry
  intro x y s
  simp only [word_eq_encXYN, ← add_eq_ofNat_mod, ← carry_eq_ite]
  exact ⟨decodeOfEncodeIsTheInstruction (.addReg x y) rfl, commit_advance_writeResultAndFlag s x _ _⟩

/-- Settles O26: the two forms are one subtraction, with their operands exchanged. -/
theorem subtractionsSetNoBorrow : Obligations.SubtractionsSetNoBorrow := by
  unfold Obligations.SubtractionsSetNoBorrow
  intro x y s i a b hform
  simp only [word_eq_encXYN, ← sub_eq_ofInt_mod, ← noBorrow_eq_ite]
  refine ⟨decodeOfEncodeIsTheInstruction (.subReg x y) rfl, decodeOfEncodeIsTheInstruction (.subn x y) rfl, ?_⟩
  rcases hform with ⟨rfl, rfl, rfl⟩ | ⟨rfl, rfl, rfl⟩ <;> exact commit_advance_writeResultAndFlag s x _ _

/-! ## Shifts -/

/-- The byte shifted is Vx or Vy, as `shift_src` says (R179, R181). -/
theorem State.shiftSource_eq {s : State} {x y : RegIdx} {v : Byte} (hvx : s.quirks.shiftSrc = .vx → v = s.getReg x)
    (hvy : s.quirks.shiftSrc = .vy → v = s.getReg y) : s.shiftSource x y = v := by
  simp only [State.shiftSource]
  split
  · next hq => exact (hvx hq).symm
  · next hq => exact (hvy hq).symm

/-- A right shift by one halves. -/
theorem ushiftRight_one_eq_ofNat (v : Byte) : v >>> 1 = BitVec.ofNat 8 (v.toNat / 2) := by
  apply BitVec.eq_of_toNat_eq
  simp only [BitVec.toNat_ushiftRight, BitVec.toNat_ofNat, Nat.shiftRight_one]
  omega

/-- A left shift by one doubles, modulo 256. -/
theorem shiftLeft_one_eq_ofNat (v : Byte) : v <<< 1 = BitVec.ofNat 8 (v.toNat * 2 % 256) := by
  apply BitVec.eq_of_toNat_eq
  simp [Nat.shiftLeft_eq]

/-- A bit as a flag's byte, in the byte's value. -/
theorem flagByte_getLsbD (v : Byte) (k : Nat) : flagByte (v.getLsbD k) = BitVec.ofNat 8 (v.toNat / 2 ^ k % 2) := by
  rw [BitVec.getLsbD, ← Nat.toNat_testBit]
  cases v.toNat.testBit k <;> rfl

/-- Bit 0 is the remainder by 2. -/
theorem shrOut_eq_ofNat (v : Byte) : shrOut v = BitVec.ofNat 8 (v.toNat % 2) := by
  rw [shrOut, flagByte_getLsbD, Nat.pow_zero, Nat.div_one]

/-- Bit 7 is the quotient by 128. -/
theorem shlOut_eq_ofNat (v : Byte) : shlOut v = BitVec.ofNat 8 (v.toNat / 128) := by
  have hbit : v.toNat / 2 ^ 7 % 2 = v.toNat / 128 := by omega
  rw [shlOut, flagByte_getLsbD, hbit]

/-- Settles O27: each shift is a halving or doubling of the selected source, with the bit that leaves it as the flag. -/
theorem shiftsSetShiftedOutBit : Obligations.ShiftsSetShiftedOutBit := by
  unfold Obligations.ShiftsSetShiftedOutBit
  intro x y s v hvx hvy
  have hsrc := State.shiftSource_eq hvx hvy
  simp only [word_eq_encXYN, ← hsrc, ← ushiftRight_one_eq_ofNat, ← shrOut_eq_ofNat, ← shiftLeft_one_eq_ofNat,
    ← shlOut_eq_ofNat]
  exact ⟨decodeOfEncodeIsTheInstruction (.shr x y) rfl, decodeOfEncodeIsTheInstruction (.shl x y) rfl,
    commit_advance_writeResultAndFlag s x _ _, commit_advance_writeResultAndFlag s x _ _⟩

/-! ## One register, no flag -/

/-- How a form that writes one register ends: pc two bytes on, and that register alone. -/
theorem commit_advance_setReg (s : State) (x : RegIdx) (v : Byte) : commit (s.advance.setReg x v) =
    .next { s with regs := s.regs.set x v, pc := s.pc + 2, progress := .stepped .executed } := rfl

/-- Settles O23: each form writes its byte to Vx alone; the sum is the byte sum modulo 256. -/
theorem literalAndCopyForms : Obligations.LiteralAndCopyForms := by
  unfold Obligations.LiteralAndCopyForms
  intro x y nn s
  simp only [word_eq_encXNN, word_eq_encXYN, ← add_eq_ofNat_mod]
  exact ⟨decodeOfEncodeIsTheInstruction (.ldImm x nn) rfl, decodeOfEncodeIsTheInstruction (.addImm x nn) rfl,
    decodeOfEncodeIsTheInstruction (.ldReg x y) rfl, commit_advance_setReg s x _, commit_advance_setReg s x _,
    commit_advance_setReg s x _⟩

/-- Settles O28: Vx is the drawn byte under the mask, so none of its bits lies outside the mask. -/
theorem randomIsMasked : Obligations.RandomIsMasked := by
  unfold Obligations.RandomIsMasked
  intro x nn s
  have hx := s.advance.getReg_setReg_self x (Config.randomByte s.draws &&& nn)
  have hmask : Config.randomByte s.draws &&& nn &&& ~~~nn = 0 := by
    rw [BitVec.and_assoc, BitVec.and_not_self]
    exact BitVec.and_zero
  exact ⟨word_eq_encXNN _ x nn ▸ decodeOfEncodeIsTheInstruction (.rnd x nn) rfl, _, rfl, rfl, hx,
    (congrArg (· &&& ~~~nn) hx).trans hmask, fun r hr => (s.advance.getReg_setReg x r _).trans (if_neg hr)⟩

/-! ## Frames -/

/-- Settles O53: the footprint of these forms is Vx, and the count of free choices where a choice is made. -/
theorem singleRegisterFormsFrame : Obligations.SingleRegisterFormsFrame := by
  unfold Obligations.SingleRegisterFormsFrame
  intro x y nn s t
  constructor
  · rintro (h | h | h | h) <;> exact exec_frame h
  · rintro (h | h) <;> exact exec_frame h

end Sys2Proof.Machine

/-! PROOFS. The index register and memory transfers (42_index_memory.md): the three forms that set I, the stores and the
load at I with their answer beyond memory, and the frames. -/

namespace Sys2Proof.Machine

/-! ## Setting I -/

theorem zext16_eq_ofNat (nnn : Imm12) : zext16 nnn = BitVec.ofNat 16 nnn.toNat :=
  (BitVec.ofNat_toNat 16 nnn).symm

/-- I plus a byte is the exact sum modulo 2^16 (R211). -/
theorem add_setWidth_eq_ofNat_mod (i : Word) (b : Byte) :
    i + b.setWidth 16 = BitVec.ofNat 16 ((i.toNat + b.toNat) % 65536) := by
  apply BitVec.eq_of_toNat_eq
  simp only [BitVec.toNat_add, BitVec.toNat_setWidth, BitVec.toNat_ofNat]
  omega

/-- The glyph of a byte is five bytes per low nibble on from 0 (R212, log 7). -/
theorem glyphAddress_eq_ofNat (v : Byte) : glyphAddress v = BitVec.ofNat 16 (5 * (v.toNat % 16)) := by
  have hlow : (v &&& 0x0F#8).toNat = v.toNat % 16 := Nat.and_two_pow_sub_one_eq_mod v.toNat 4
  simp only [glyphAddress, hlow, Config.fontBase, Config.glyphBytes, Nat.zero_add]

/-- How a form that sets I ends: pc two bytes on, and I alone. -/
theorem commit_advance_setIndex (s : State) (v : Word) : commit (s.advance.setIndex v) =
    .next { s with index := v, pc := s.pc + 2, progress := .stepped .executed } := rfl

/-- Settles O29: each form gives I the 16-bit value of its sum, VF staying with the other registers. -/
theorem indexForms : Obligations.IndexForms := by
  unfold Obligations.IndexForms
  intro x nnn s
  simp only [word_eq_encXNN, ← zext16_eq_ofNat, ← add_setWidth_eq_ofNat_mod, ← glyphAddress_eq_ofNat]
  exact ⟨decodeOfEncodeIsTheInstruction (.ldI nnn) rfl, decodeOfEncodeIsTheInstruction (.addIVx x) rfl,
    decodeOfEncodeIsTheInstruction (.ldFVx x) rfl, commit_advance_setIndex s _, commit_advance_setIndex s _,
    commit_advance_setIndex s _⟩

/-! ## I after a transfer -/

theorem State.indexAfter_none {s : State} (h : s.quirks.indexInc = .none) (x : RegIdx) : s.indexAfter x = s.index := by
  simp only [State.indexAfter, h]

/-- Under `X_PLUS_1` I moves by X + 1, modulo 2^16 (R214, R215, D4). -/
theorem State.indexAfter_xPlus1 {s : State} (h : s.quirks.indexInc = .xPlus1) (x : RegIdx) :
    s.indexAfter x = BitVec.ofNat 16 ((s.index.toNat + x.val + 1) % 65536) := by
  apply BitVec.eq_of_toNat_eq
  simp only [State.indexAfter, h, BitVec.toNat_add, BitVec.toNat_ofNat]
  omega

/-! ## Accesses beyond memory -/

/-- An instruction that accesses an address beyond memory halts the CORE with its own word and that address (R301). -/
theorem raiseOutOfBounds_eq (i : Instr) (bad : Nat) (s : State) : raiseOutOfBounds i bad s = .next (s.halted
    { kind := .memoryOutOfBounds, pc := s.pc, word := some (encode i), addr := some bad }) := rfl

theorem exec_ldBVx_error {x : RegIdx} {s : State} (h : ¬ s.inRange 3) :
    exec (.ldBVx x) s = raiseOutOfBounds (.ldBVx x) s.firstBad s := by
  simp only [exec, execLdBVx, State.memWriteBytes_error (vs := bcdDigits (s.getReg x)) h]

theorem exec_ldMemVx_error {x : RegIdx} {s : State} (h : ¬ s.inRange (x.val + 1)) :
    exec (.ldMemVx x) s = raiseOutOfBounds (.ldMemVx x) s.firstBad s := by
  rw [← s.length_regsUpTo x] at h
  simp only [exec, execLdMemVx, State.memWriteBytes_error h]

theorem exec_ldVxMem_error {x : RegIdx} {s : State} (h : ¬ s.inRange (x.val + 1)) :
    exec (.ldVxMem x) s = raiseOutOfBounds (.ldVxMem x) s.firstBad s := by
  simp only [exec, execLdVxMem, State.memReadBytes_error h]

/-! ## Stores -/

/-- The decimal digits of a byte each fit a byte (R213). -/
theorem map_toNat_bcdDigits (v : Byte) :
    (bcdDigits v).map BitVec.toNat = [v.toNat / 100, v.toNat / 10 % 10, v.toNat % 10] := by
  simp only [bcdDigits, List.map_cons, List.map_nil, BitVec.toNat_ofNat, List.cons.injEq, and_true]
  omega

/-- Settles O30: the store commits a memory whose three cells hold the digits; its footprint is those cells alone. -/
theorem bcdStoresThreeDigits : Obligations.BcdStoresThreeDigits := by
  unfold Obligations.BcdStoresThreeDigits
  intro x s
  simp only [word_eq_encXNN]
  refine ⟨decodeOfEncodeIsTheInstruction (.ldBVx x) rfl, fun hr => ?_,
    fun h => (exec_ldBVx_error h).trans (raiseOutOfBounds_eq ..)⟩
  obtain ⟨m, hm, hholds⟩ :=
    State.memWriteBytes_stores (bs := bcdDigits (s.getReg x)) (by simp [length_bcdDigits, Config.memSize]) hr
  have hexec := exec_ldBVx_ok hm
  have hcell : ∀ k (hk : k < 3), (m.read ((s.index.toNat + k) % 4096)).toNat =
      ((bcdDigits (s.getReg x)).map BitVec.toNat)[k]'hk := fun k hk =>
    (congrArg BitVec.toNat ((hholds _).1 k hk rfl)).trans (List.getElem_map ..).symm
  simp only [map_toNat_bcdDigits] at hcell
  exact ⟨_, hexec, rfl, hcell 0 (by decide), hcell 1 (by decide), hcell 2 (by decide), (exec_frame hexec).mem⟩

/-- Settles O31: the store commits a memory whose cells hold V0 to Vx; its footprint is those cells and I. -/
theorem registerStore : Obligations.RegisterStore := by
  unfold Obligations.RegisterStore
  intro x s
  simp only [word_eq_encXNN]
  refine ⟨decodeOfEncodeIsTheInstruction (.ldMemVx x) rfl, fun hr => ?_,
    fun h => (exec_ldMemVx_error h).trans (raiseOutOfBounds_eq ..)⟩
  have hlen := s.length_regsUpTo x
  obtain ⟨m, hm, hholds⟩ :=
    State.memWriteBytes_stores (by simp only [hlen, Config.memSize]; omega) (hlen.symm ▸ hr)
  have hexec := exec_ldMemVx_ok hm
  refine ⟨_, hexec, rfl, fun h => State.indexAfter_none h x, fun h => State.indexAfter_xPlus1 h x, fun r hle => ?_,
    (exec_frame hexec).mem⟩
  have hk : r.val < (s.regsUpTo x).length := by
    rw [hlen]
    exact Nat.lt_succ_of_le hle
  exact ((hholds _).1 r.val hk rfl).trans (s.getElem_regsUpTo x r.val hk)

/-! ## Loads -/

/-- A load whose addresses all exist commits the bytes read as V0 to Vx (R215). -/
theorem exec_ldVxMem_ok {x : RegIdx} {s : State} (h : s.inRange (x.val + 1)) :
    exec (.ldVxMem x) s = commit ((s.advance.setRegsFrom 0
      ((List.range (x.val + 1)).map fun k => s.spriteByte k)).setIndex (s.indexAfter x)) := by
  simp only [exec, execLdVxMem, State.memReadBytes_ok h]

/-- Register `r` below `n` becomes byte `r` of the `n` bytes loaded; the others stay. -/
theorem State.getReg_setRegsFrom_range (s : State) (f : Nat → Byte) (n : Nat) (r : RegIdx) :
    (s.setRegsFrom 0 ((List.range n).map f)).getReg r = if r.val < n then f r.val else s.getReg r := by
  rw [State.getReg_setRegsFrom, if_neg (Nat.not_lt_zero _), Nat.sub_zero, List.getD_eq_getElem?_getD,
    List.getElem?_map]
  split
  · next h => rw [List.getElem?_range h]; rfl
  · next h => rw [List.getElem?_eq_none (by simpa using h)]; rfl

/-- Settles O32: the load commits V0 to Vx as the bytes read and keeps every other register. -/
theorem registerLoad : Obligations.RegisterLoad := by
  unfold Obligations.RegisterLoad
  intro x s
  simp only [word_eq_encXNN]
  refine ⟨decodeOfEncodeIsTheInstruction (.ldVxMem x) rfl, fun hr => ?_,
    fun h => (exec_ldVxMem_error h).trans (raiseOutOfBounds_eq ..)⟩
  refine ⟨_, exec_ldVxMem_ok hr, ?_, fun h => State.indexAfter_none h x, fun h => State.indexAfter_xPlus1 h x,
    fun r => ?_⟩
  · rw [State.setRegsFrom_eq]
    rfl
  · simp only [Fin.le_def, ← Nat.lt_succ_iff]
    exact s.advance.getReg_setRegsFrom_range _ (x.val + 1) r

/-! ## Frames -/

/-- Settles O56: the footprint of each form is the one piece of state it writes, that of a draw also VF and STATUS. -/
theorem indexTimerScreenFormsFrame : Obligations.IndexTimerScreenFormsFrame := by
  unfold Obligations.IndexTimerScreenFormsFrame
  intro x y n nnn s t
  refine ⟨?_, exec_frame, exec_frame, exec_frame, exec_frame⟩
  rintro (h | h | h) <;> exact exec_frame h

/-- Settles O57: the footprint of a store is the cells accessed, that of a load V0 to Vx, and I where it moves. -/
theorem memoryFormsFrame : Obligations.MemoryFormsFrame := by
  unfold Obligations.MemoryFormsFrame
  exact fun x s t => ⟨exec_frame, exec_frame, exec_frame⟩

end Sys2Proof.Machine

/-! PROOFS. Display (43_display.md): clearing the screen, what one draw does to the screen and VF, and the same draw
twice. -/

namespace Sys2Proof.Machine

/-! ## Clearing the screen -/

/-- How a clear ends: pc two bytes on, and the frame buffer alone. -/
theorem exec_cls (s : State) : exec .cls s =
    .next { s with fb := blankScreen, pc := s.pc + 2, progress := .stepped .executed } := rfl

/-- Settles O34: the frame buffer becomes the blank screen, and nothing else but pc changes. -/
theorem clearScreen : Obligations.ClearScreen := by
  unfold Obligations.ClearScreen
  exact ⟨decodeOfEncodeIsTheInstruction .cls rfl, fun s =>
    ⟨_, exec_cls s, rfl, fun c r => pixel_blankScreen (c, r)⟩⟩

/-! ## One draw -/

theorem flagByte_eq_one {b : Bool} : flagByte b = 1 ↔ b = true := by
  cases b <;> decide

theorem flagByte_eq_zero {b : Bool} : flagByte b = 0 ↔ b = false := by
  cases b <;> decide

/-- The frame buffer after the draw, and whether it met a cell that was on (R241). -/
def State.drawn (s : State) (x y : RegIdx) (n : Nibble) : FrameBuffer × Bool :=
  xorCells s.fb false (s.drawnCells x y n)

/-- The state after a draw whose sprite bytes all exist (R241). -/
def State.afterDraw (s : State) (x y : RegIdx) (n : Nibble) : State :=
  { s with
    fb := (s.drawn x y n).1, regs := s.regs.set 15 (flagByte (s.drawn x y n).2), pc := s.pc + 2,
    progress := .stepped .executed }

theorem exec_drw_ok {x y : RegIdx} {n : Nibble} {s : State} (h : s.inRange n.toNat) :
    exec (.drw x y n) s = .next (s.afterDraw x y n) :=
  execDrw_ok h

/-- Every sprite row is read before any pixel changes, so a row beyond memory leaves the screen alone (D14). -/
theorem exec_drw_error {x y : RegIdx} {n : Nibble} {s : State} (h : ¬ s.inRange n.toNat) :
    exec (.drw x y n) s = raiseOutOfBounds (.drw x y n) s.firstBad s := by
  simp only [exec, execDrw, State.memReadBytes_error h]

/-- A cell the sprite lights is flipped. -/
theorem State.pixel_drawn_of_lights {s : State} {x y : RegIdx} {n : Nibble} {c : Column} {r : Row}
    (h : s.lights x y n c r) : pixel (s.drawn x y n).1 (c, r) = !pixel s.fb (c, r) :=
  ((xorCells_spec _ _ _ (s.nodup_drawnCells x y n)).1 (c, r)).trans (if_pos (State.mem_drawnCells.2 h))

/-- A cell the sprite does not light stays. -/
theorem State.pixel_drawn_of_not_lights {s : State} {x y : RegIdx} {n : Nibble} {c : Column} {r : Row}
    (h : ¬ s.lights x y n c r) : pixel (s.drawn x y n).1 (c, r) = pixel s.fb (c, r) :=
  ((xorCells_spec _ _ _ (s.nodup_drawnCells x y n)).1 (c, r)).trans (if_neg (mt State.mem_drawnCells.1 h))

/-- A draw collides exactly when a cell the sprite lights was on. -/
theorem State.drawn_hit {s : State} {x y : RegIdx} {n : Nibble} :
    (s.drawn x y n).2 = true ↔ ∃ (c : Column) (r : Row), s.lights x y n c r ∧ pixel s.fb (c, r) = true := by
  simp only [State.drawn, (xorCells_spec _ _ _ (s.nodup_drawnCells x y n)).2, Bool.false_eq_true, false_or,
    Prod.exists, State.mem_drawnCells]

theorem State.getReg_afterDraw_flag (s : State) (x y : RegIdx) (n : Nibble) :
    (s.afterDraw x y n).getReg 15 = flagByte (s.drawn x y n).2 :=
  s.getReg_setReg_self 15 _

theorem State.getReg_afterDraw_other (s : State) (x y : RegIdx) (n : Nibble) {r : RegIdx} (h : r ≠ 15) :
    (s.afterDraw x y n).getReg r = s.getReg r :=
  (s.getReg_setReg 15 r _).trans (if_neg h)

/-- Settles O35: the draw XORs the cells lit, which are pairwise different, and its flag is the collision. -/
theorem drawXorsSprite : Obligations.DrawXorsSprite := by
  unfold Obligations.DrawXorsSprite
  intro x y n s
  simp only [word_eq_encXYN]
  refine ⟨decodeOfEncodeIsTheInstruction (.drw x y n) rfl, fun hr => ⟨s.afterDraw x y n, exec_drw_ok hr, rfl,
    fun c r => State.pixel_drawn_of_lights, fun c r => State.pixel_drawn_of_not_lights, fun hit => ?_, fun miss => ?_,
    fun r => s.getReg_afterDraw_other x y n⟩, fun hr => (exec_drw_error hr).trans (raiseOutOfBounds_eq ..)⟩
  · rw [State.getReg_afterDraw_flag, flagByte_eq_one]
    exact State.drawn_hit.2 hit
  · rw [State.getReg_afterDraw_flag, flagByte_eq_zero, ← Bool.not_eq_true]
    exact mt State.drawn_hit.1 miss

/-! ## The same draw twice -/

/-- XORing the same cells twice restores the frame buffer. -/
theorem xorCells_xorCells_fst (f : FrameBuffer) (hit hit' : Bool) {ps : List (Column × Row)} (h : ps.Nodup) :
    (xorCells (xorCells f hit ps).1 hit' ps).1 = f := by
  refine FrameBuffer.ext fun q => ?_
  rw [(xorCells_spec _ _ _ h).1, (xorCells_spec _ _ _ h).1]
  by_cases hq : q ∈ ps
  · rw [if_pos hq, if_pos hq, Bool.not_not]
  · rw [if_neg hq, if_neg hq]

/-- XORing the same cells again meets a cell that is on exactly when the first time turned one on. -/
theorem xorCells_xorCells_snd (f : FrameBuffer) (hit : Bool) {ps : List (Column × Row)} (h : ps.Nodup) :
    (xorCells (xorCells f hit ps).1 false ps).2 = true ↔
      ∃ q, pixel f q = false ∧ pixel (xorCells f hit ps).1 q = true := by
  rw [(xorCells_spec _ _ _ h).2, or_iff_right Bool.false_ne_true]
  refine exists_congr fun q => and_congr_left fun hon => ?_
  rw [(xorCells_spec f hit ps h).1] at hon
  by_cases hq : q ∈ ps
  · rw [if_pos hq, Bool.not_eq_true'] at hon
    exact iff_of_true hq hon
  · rw [if_neg hq] at hon
    exact iff_of_false hq (Bool.not_eq_false _ |>.mpr hon)

/-- With Vx and Vy kept, the same draw lights the same cells after the draw: it reads nothing else a draw writes. -/
theorem State.drawnCells_afterDraw {s : State} {x y : RegIdx} {n : Nibble}
    (hx : (s.afterDraw x y n).getReg x = s.getReg x) (hy : (s.afterDraw x y n).getReg y = s.getReg y) :
    (s.afterDraw x y n).drawnCells x y n = s.drawnCells x y n := by
  simp only [State.drawnCells, hx, hy]
  rfl

/-- Settles O36: both draws XOR the same cells, so the second undoes the first and collides where the first turned a
cell on. -/
theorem doubleDrawRestoresScreen : Obligations.DoubleDrawRestoresScreen := by
  unfold Obligations.DoubleDrawRestoresScreen
  intro x y n s t hr ht hx hy
  cases (exec_drw_ok hr).symm.trans ht
  have hnodup := s.nodup_drawnCells x y n
  have hsecond : (s.afterDraw x y n).drawn x y n = xorCells (s.drawn x y n).1 false (s.drawnCells x y n) := by
    rw [← State.drawnCells_afterDraw hx hy]
    rfl
  refine ⟨_, exec_drw_ok (s := s.afterDraw x y n) hr, ?_, ?_, ?_⟩
  · exact (congrArg Prod.fst hsecond).trans (xorCells_xorCells_fst _ _ _ hnodup)
  · rw [State.getReg_afterDraw_flag, flagByte_eq_one, hsecond]
    exact (xorCells_xorCells_snd _ _ hnodup).trans Prod.exists
  · rw [State.getReg_afterDraw_flag, flagByte_eq_one, flagByte_eq_zero]
    exact Bool.eq_false_or_eq_true _

end Sys2Proof.Machine

/-! PROOFS. Keys and timers (44_keypad_timers.md): the key skips, the wait for a key, the timer transfers. -/

namespace Sys2Proof.Machine

/-! ## Key skips -/

/-- What a key test finds: the snapshot at a key's number, and nothing pressed at any other value (R270, D21). -/
theorem State.keyPressed_eq {s : State} {v : Byte} {p : Bool} (hkey : ∀ k : KeyIdx, v.toNat = k.val → p = s.keys[k])
    (hnone : 16 ≤ v.toNat → p = false) : s.keyPressed v = p := by
  by_cases h : v.toNat < 16
  · exact (dif_pos h).trans (hkey ⟨v.toNat, h⟩ rfl).symm
  · exact (dif_neg h).trans (hnone (Nat.le_of_not_lt h)).symm

/-- Settles O37: each form is one skip, on the key test or on its negation. -/
theorem keySkips : Obligations.KeySkips := by
  unfold Obligations.KeySkips
  intro x s p hkey hnone
  have hp : s.keyPressed (s.getReg x) = p := State.keyPressed_eq hkey hnone
  simp only [word_eq_encXNN]
  refine ⟨decodeOfEncodeIsTheInstruction (.skp x) rfl, decodeOfEncodeIsTheInstruction (.sknp x) rfl, ?_, ?_⟩
  · rw [exec, execSkp, commit_advance_skipIf, hp]
  · rw [exec, execSknp, commit_advance_skipIf, hp]
    cases p <;> rfl

/-! ## The wait for a key -/

/-- With no key pressed the wait blocks (R273). -/
theorem exec_ldVxK_block {s : State} (h : s.pressedKeys = []) (x : RegIdx) : exec (.ldVxK x) s = block s := by
  simp only [exec, execLdVxK, h]

/-- With a key pressed the wait stores a pressed key in Vx and counts its choice; which key is not said (R273, D22). -/
theorem exec_ldVxK_store {s : State} (h : s.pressedKeys ≠ []) (x : RegIdx) :
    ∃ k ∈ s.pressedKeys, exec (.ldVxK x) s = commit ((s.advance.setReg x (keyByte k)).countDraw) := by
  obtain ⟨k, ks, hks⟩ := List.exists_cons_of_ne_nil h
  exact ⟨chooseKey s.draws k ks, hks ▸ chooseKey_mem s.draws k ks, by simp only [exec, execLdVxK, hks]⟩

/-- Settles O38: the wait blocks where the list of pressed keys is empty, else stores a member of it. -/
theorem waitForKey : Obligations.WaitForKey := by
  unfold Obligations.WaitForKey
  intro x s
  simp only [word_eq_encXNN]
  refine ⟨decodeOfEncodeIsTheInstruction (.ldVxK x) rfl, fun hnone => ?_, fun ⟨k, hk⟩ => ?_⟩
  · exact exec_ldVxK_block (State.pressedKeys_eq_nil.2 hnone) x
  · have hsome : s.pressedKeys ≠ [] := List.ne_nil_of_mem (State.mem_pressedKeys.2 hk)
    obtain ⟨k', hmem, hexec⟩ := exec_ldVxK_store hsome x
    exact ⟨_, k', hexec, State.mem_pressedKeys.1 hmem, rfl⟩

/-! ## Timer transfers -/

/-- How the write of DT ends: pc two bytes on, and DT alone. -/
theorem commit_advance_setDelay (s : State) (v : Byte) : commit (s.advance.setDelay v) =
    .next { s with dt := v, pc := s.pc + 2, progress := .stepped .executed } := rfl

/-- How the write of ST ends: pc two bytes on, and ST alone. -/
theorem commit_advance_setSound (s : State) (v : Byte) : commit (s.advance.setSound v) =
    .next { s with st := v, pc := s.pc + 2, progress := .stepped .executed } := rfl

theorem soundActive_iff {s : State} : soundActive s = true ↔ s.st ≠ 0 := bne_iff_ne

/-- Settles O39: each form writes Vx, DT or ST alone, and `sound_active` reads ST. -/
theorem timerTransfers : Obligations.TimerTransfers := by
  unfold Obligations.TimerTransfers
  intro x s
  simp only [word_eq_encXNN]
  exact ⟨decodeOfEncodeIsTheInstruction (.ldVxDt x) rfl, decodeOfEncodeIsTheInstruction (.ldDtVx x) rfl,
    decodeOfEncodeIsTheInstruction (.ldStVx x) rfl, commit_advance_setReg s x _, commit_advance_setDelay s _,
    ⟨_, commit_advance_setSound s _, rfl, soundActive_iff⟩, soundActive_iff⟩

end Sys2Proof.Machine

/-! PROOFS. Exceptions and the host's commands (60_exceptions.md): timer ticks and key input; what a halted CORE does;
errors are precise; who raises which error. -/

namespace Sys2Proof.Machine

/-! ## Timer ticks and key input -/

theorem runCommands_cons_tickTimers (cs : List Command) (s : State) :
    runCommands (.tickTimers :: cs) s = runCommands cs (tickTimers s) := rfl

/-- Settles O40: by induction on the number of ticks, the first one taken off. -/
theorem ticksCountDown : Obligations.TicksCountDown := by
  unfold Obligations.TicksCountDown
  intro n
  induction n with
  | zero => exact fun s => ⟨s, rfl, rfl, rfl, rfl⟩
  | succ n ih =>
    intro s
    obtain ⟨t, hrun, heq, hdt, hst⟩ := ih (tickTimers s)
    rw [tickTimers_dt, toNat_tickByte] at hdt
    rw [tickTimers_st, toNat_tickByte] at hst
    exact ⟨t, by rw [List.replicate_succ, runCommands_cons_tickTimers, hrun], heq, by omega, by omega⟩

/-- Settles O41: by the two answers of `set_key_state`. -/
theorem setKeyStateSetsOneKey : Obligations.SetKeyStateSetsOneKey := by
  unfold Obligations.SetKeyStateSetsOneKey
  intro k p s
  rcases setKeyState_cases k p s with ⟨hlt, h⟩ | ⟨hge, h⟩
  · refine ⟨fun _ => ⟨_, h, rfl, fun j => ?_⟩, fun hge => absurd hlt (Nat.not_lt.2 hge)⟩
    simp only [Fin.getElem_fin, Vector.getElem_set, eq_comm]
  · exact ⟨fun hlt => absurd hlt (Nat.not_lt.2 hge), fun _ => h⟩

/-! ## A halted CORE -/

/-- The CORE has halted with `e` and is past the point where `load` is accepted. -/
def State.HaltedAfterBoot (e : ErrorRecord) (s : State) : Prop :=
  s.status = .halted e ∧ s.progress ≠ .constructed

/-- In the boot order a halted CORE is no longer a constructed one (R352). -/
theorem State.haltedAfterBoot_of_bootOk {s : State} {e : ErrorRecord} (hs : s.status = .halted e) (hboot : s.bootOk) :
    s.HaltedAfterBoot e := by
  refine ⟨hs, fun hp => ?_⟩
  simp only [State.bootOk, hp] at hboot
  exact nomatch hs.symm.trans hboot.2

/-- Every command leaves such a CORE halted: its step reports, `load` is refused (R304). -/
theorem applyCommand_keeps_haltedAfterBoot {e : ErrorRecord} (c : Command) (s t : State) (hs : s.HaltedAfterBoot e)
    (h : applyCommand c s = .next t) : t.HaltedAfterBoot e := by
  obtain ⟨hstatus, hprogress⟩ := hs
  cases c with
  | load bytes =>
    simp only [applyCommand] at h
    rcases load_cases bytes s with ⟨hp, _⟩ | ⟨hp, _⟩ | ⟨_, hl⟩
    · exact absurd hp hprogress
    · exact absurd hp hprogress
    · exact nomatch hl.symm.trans h
  | step =>
    cases (step_halted hstatus).symm.trans h
    exact ⟨hstatus, nofun⟩
  | tickTimers =>
    cases h
    exact ⟨hstatus, hprogress⟩
  | setKeyState k p =>
    simp only [applyCommand] at h
    rcases setKeyState_cases k p s with ⟨_, hk⟩ | ⟨_, hk⟩ <;> rw [hk] at h <;> cases h
    exact ⟨hstatus, hprogress⟩

/-- Settles O9: the other commands do on a halted CORE what they do on any; the run is by induction over its
commands. -/
theorem haltIsSticky : Obligations.HaltIsSticky := by
  unfold Obligations.HaltIsSticky
  intro s e hs
  refine ⟨(step_halted hs).trans (reportHalt_eq e s), toNat_tickByte s.dt, toNat_tickByte s.st, fun k p => ?_, rfl,
    soundActive_iff, rfl, fun hboot cs t h => ?_⟩
  · exact dif_pos k.isLt
  · have hinit := State.haltedAfterBoot_of_bootOk hs hboot
    exact (runCommands_induct (State.HaltedAfterBoot e) applyCommand_keeps_haltedAfterBoot cs s t hinit h).1

/-! ## Errors are precise -/

/-- Settles O10: a commit or a block answers no error and leaves the CORE running; only a raise is left. -/
theorem errorsArePrecise : Obligations.ErrorsArePrecise := by
  unfold Obligations.ErrorsArePrecise
  intro s t e hrun h herr
  rcases step_outcomes s with ⟨e', hhalted, _⟩ | ⟨_, ⟨s', hs, hc⟩ | hs | ⟨e', hs, _, hpc, _⟩⟩
  · exact nomatch hrun.symm.trans hhalted
  · cases hs.symm.trans h
    have hrun' : s'.status = .running := hc.status.trans hrun
    exact herr.elim nofun fun hhalt => nomatch hrun'.symm.trans hhalt
  · cases hs.symm.trans h
    exact herr.elim nofun fun hhalt => nomatch hrun.symm.trans hhalt
  · cases hs.symm.trans h
    obtain rfl : e' = e := herr.elim (fun hp => StepResult.err.inj (Progress.stepped.inj hp)) Status.halted.inj
    exact ⟨rfl, hpc⟩

/-! ## Who raises which error -/

/-- A fetch gives a word, or fails where pc or pc + 1 is beyond memory under `FAULT` (R71, R108). -/
theorem State.fetchWord_cases (s : State) :
    (∃ w, s.fetchWord = .ok w) ∨
      (s.quirks.memEdge = .fault ∧ Config.memSize ≤ s.pc.toNat + 1 ∧
        s.fetchWord = .error (max s.pc.toNat Config.memSize)) := by
  by_cases hok : s.quirks.memEdge = .wrap ∨ s.pc.toNat + 1 < Config.memSize
  · exact .inl ⟨_, State.fetchWord_ok hok⟩
  · obtain ⟨hwrap, hge⟩ := not_or.1 hok
    have hfault : s.quirks.memEdge = .fault := by
      cases hm : s.quirks.memEdge with
      | wrap => exact absurd hm hwrap
      | fault => rfl
    exact .inr ⟨hfault, Nat.le_of_not_lt hge, State.fetchWord_error hfault (Nat.le_of_not_lt hge)⟩

/-- Fetch and decode give the instruction of the fetched word, or fail in the fetch or in the decoder (R305). -/
theorem State.fetchDecode_cases (s : State) :
    (∃ w i, s.fetchWord = .ok w ∧ decodeWord w = .ok i ∧ s.fetchDecode = .ok i) ∨
      (∃ w r, s.fetchWord = .ok w ∧ decodeWord w = .error r ∧
        s.fetchDecode = .error { kind := .invalidOpcode, pc := s.pc, word := some w, addr := none }) ∨
      (s.quirks.memEdge = .fault ∧ Config.memSize ≤ s.pc.toNat + 1 ∧
        s.fetchDecode = .error { kind := .memoryOutOfBounds, pc := s.pc, word := none,
                                 addr := some (max s.pc.toNat Config.memSize) }) := by
  rcases s.fetchWord_cases with ⟨w, hw⟩ | ⟨hfault, hge, hw⟩
  · cases hdec : decodeWord w with
    | ok i => exact .inl ⟨w, i, hw, hdec, State.fetchDecode_of_ok hw hdec⟩
    | error r => exact .inr (.inl ⟨w, r, hw, hdec, State.fetchDecode_of_undecodable hw hdec⟩)
  · exact .inr (.inr ⟨hfault, hge, State.fetchDecode_of_error hw⟩)

/-- `load` halts a running CORE on too long a program alone (R80). -/
theorem load_halted {bytes : List Byte} {s t : State} {e : ErrorRecord} (hrun : s.status = .running)
    (h : load bytes s = .next t) (he : t.status = .halted e) : e = romTooLarge ∧ 3584 < bytes.length := by
  rcases load_cases bytes s with ⟨_, _, hl⟩ | ⟨_, hlen, hl⟩ | ⟨_, hl⟩ <;> rw [hl] at h <;> cases h
  · exact nomatch hrun.symm.trans he
  · cases he
    exact ⟨rfl, hlen⟩

/-- The error a step of a running CORE halts with is that of its fetch, of its decoding, or of its instruction
(R305). -/
theorem step_halted_cases {s t : State} {e : ErrorRecord} (hrun : s.status = .running) (h : step s = .next t)
    (he : t.status = .halted e) :
    (e.kind = .memoryOutOfBounds ∧ s.quirks.memEdge = .fault ∧ Config.memSize ≤ s.pc.toNat + 1) ∨
      (e.kind = .invalidOpcode ∧ ∃ w r, s.fetchWord = .ok w ∧ decodeWord w = .error r) ∨
      ∃ w i, s.fetchWord = .ok w ∧ decodeWord w = .ok i ∧ exec i s = .next t := by
  rcases s.fetchDecode_cases with ⟨w, i, hw, hdec, hfd⟩ | ⟨w, r, hw, hdec, hfd⟩ | ⟨hfault, hge, hfd⟩
  · exact .inr (.inr ⟨w, i, hw, hdec, (step_exec hrun hfd).symm.trans h⟩)
  · cases (step_raise hrun hfd).symm.trans h
    cases he
    exact .inr (.inl ⟨rfl, w, r, hw, hdec⟩)
  · cases (step_raise hrun hfd).symm.trans h
    cases he
    exact .inl ⟨rfl, hfault, hge⟩

/-- The error an instruction of a running CORE halts with is one that the instruction raises. -/
theorem exec_halted {i : Instr} {s t : State} {e : ErrorRecord} (hrun : s.status = .running) (h : exec i s = .next t)
    (he : t.status = .halted e) : ∃ k a, e = insnError k i a s ∧ Raises k a i s := by
  rcases exec_cases i s with ⟨s', hs, hc⟩ | ⟨hs, _⟩ | ⟨k, a, hs, hcause⟩ <;> cases hs.symm.trans h
  · exact nomatch (hc.status.trans hrun).symm.trans he
  · exact nomatch hrun.symm.trans he
  · cases he
    exact ⟨k, a, rfl, hcause⟩

/-- Settles O11: the codes by computation; then `load`, the step, and the instruction, each by the errors it can halt
with. -/
theorem onlyTheListedErrorsAreRaised : Obligations.OnlyTheListedErrorsAreRaised := by
  unfold Obligations.OnlyTheListedErrorsAreRaised
  refine ⟨rfl, fun bytes s t e hrun h he => ?_, fun s t e hrun h he => ?_, fun i s t e hrun h he => ?_⟩
  · obtain ⟨rfl, hlen⟩ := load_halted hrun h he
    exact ⟨rfl, hlen⟩
  · rcases step_halted_cases hrun h he with hfetch | ⟨hk, w, r, hw, hdec⟩ | hexec
    · exact .inl hfetch
    · exact .inr (.inl ⟨hk, w, hw, fun i hi => nomatch hdec.symm.trans hi⟩)
    · exact .inr (.inr hexec)
  · obtain ⟨k, a, rfl, ⟨hk, _, hi⟩ | ⟨hk, hfault, ha, hi⟩ | ⟨hk, hsp, _, hi⟩ | ⟨hk, hsp, _, hi⟩⟩ :=
      exec_halted hrun h he
    · exact .inl ⟨hk, hi⟩
    · exact .inr (.inl ⟨hk, hfault, ⟨s.firstBad, ha, Nat.le_max_right _ _⟩, hi⟩)
    · exact .inr (.inr (.inl ⟨hk, hsp, hi⟩))
    · exact .inr (.inr (.inr ⟨hk, hsp, hi⟩))

end Sys2Proof.Machine

/-! PROOFS. Construction, loading and the host's commands (70_reset_and_hazards.md): every command keeps the invariant;
a step that finds no program. -/

namespace Sys2Proof.Machine

/-! ## Every command keeps the invariant -/

/-- A constructed CORE that meets the invariant runs, with pc at the load offset (R47, R352). -/
theorem State.Inv.constructed {s : State} (h : s.Inv) (hp : s.progress = .constructed) :
    s.pc = 0x200#16 ∧ s.status = .running := by
  simpa only [State.bootOk, hp] using h.boot_ok

/-- A program that fits is written inside the 4096 cells, and the CORE keeps running (R80). -/
theorem State.Inv.loaded {s : State} {bytes : List Byte} (h : s.Inv) (hp : s.progress = .constructed)
    (hlen : bytes.length ≤ 3584) :
    ((s.setMem (s.mem.writeRange Config.loadOffset bytes)).setProgress .loaded).Inv := by
  obtain ⟨hpc, hrun⟩ := h.constructed hp
  have hfits : Config.loadOffset + bytes.length ≤ Config.memSize := Nat.add_le_add_left hlen Config.loadOffset
  exact { mem_wf := Memory.wf_writeRange h.mem_wf hfits
          status_ok := by simp [State.statusOk, hrun]
          boot_ok := hpc }

/-- A program that is too long halts the CORE with pc still at the load offset, the address of the record (R80,
R301). -/
theorem State.Inv.haltedTooLarge {s : State} (h : s.Inv) (hp : s.progress = .constructed) :
    ((s.setStatus (.halted romTooLarge)).setProgress .loaded).Inv := by
  obtain ⟨hpc, _⟩ := h.constructed hp
  exact { mem_wf := h.mem_wf
          status_ok := ⟨⟨rfl, rfl, rfl⟩, hpc.symm, trivial, .inl rfl⟩
          boot_ok := hpc }

theorem load_keeps_inv {bytes : List Byte} {s t : State} (hs : s.Inv) (h : load bytes s = .next t) : t.Inv := by
  rcases load_cases bytes s with ⟨hp, hlen, hl⟩ | ⟨hp, _, hl⟩ | ⟨_, hl⟩ <;> cases hl.symm.trans h
  · exact hs.loaded hp hlen
  · exact hs.haltedTooLarge hp

theorem step_keeps_inv {s t : State} (hs : s.Inv) (h : step s = .next t) : t.Inv := by
  obtain ⟨u, hu, hinv⟩ := stepKeepsInvariant s hs
  cases hu.symm.trans h
  exact hinv

/-- The invariant does not speak of the timers. -/
theorem State.Inv.tickTimers {s : State} (h : s.Inv) : (Machine.tickTimers s).Inv :=
  ⟨h.mem_wf, h.status_ok, h.boot_ok⟩

/-- The invariant does not speak of the keys. -/
theorem setKeyState_keeps_inv {k : Nat} {p : Bool} {s t : State} (hs : s.Inv) (h : setKeyState k p s = .next t) :
    t.Inv := by
  rcases setKeyState_cases k p s with ⟨_, hk⟩ | ⟨_, hk⟩ <;> cases hk.symm.trans h
  exact ⟨hs.mem_wf, hs.status_ok, hs.boot_ok⟩

theorem applyCommand_keeps_inv (c : Command) (s t : State) (hs : s.Inv) (h : applyCommand c s = .next t) : t.Inv := by
  cases c with
  | load bytes => exact load_keeps_inv hs h
  | step => exact step_keeps_inv hs h
  | tickTimers =>
    cases h
    exact hs.tickTimers
  | setKeyState k p => exact setKeyState_keeps_inv hs h

/-- Settles O14: by induction over the commands, each of which keeps the invariant. -/
theorem commandsKeepInvariant : Obligations.CommandsKeepInvariant := by
  unfold Obligations.CommandsKeepInvariant
  exact runCommands_induct State.Inv applyCommand_keeps_inv

/-! ## A step that finds no program -/

/-- The zero word is `SYS` with literal 0, which raises (R140). -/
theorem step_zeroWord {s : State} (hrun : s.status = .running) (hw : s.fetchWord = .ok 0) :
    step s = .next (s.halted { kind := .invalidOpcode, pc := s.pc, word := some 0, addr := none }) := by
  obtain ⟨hdec, hexec⟩ := sysRaisesInvalidOpcode 0 s (by decide) (by decide)
  exact (step_exec hrun (State.fetchDecode_of_ok hw hdec)).trans hexec

/-- A CORE that stands at the load offset on two zero bytes fetches the zero word, whatever `mem_edge` is. -/
theorem step_zerosAtLoadOffset {s : State} (hrun : s.status = .running) (hpc : s.pc = 0x200)
    (hhi : s.mem.read 0x200 = 0) (hlo : s.mem.read 0x201 = 0) :
    step s = .next (s.halted { kind := .invalidOpcode, pc := 0x200, word := some 0, addr := none }) := by
  have hw : s.fetchWord = .ok (s.mem.read 0x200 ++ s.mem.read 0x201) := by
    have h := State.fetchWord_ok (s := s) (.inr (by rw [hpc]; decide))
    rwa [hpc] at h
  rw [hhi, hlo] at hw
  exact hpc ▸ step_zeroWord hrun hw

/-- Settles O44: construction leaves zeros at the load offset, and a load of no bytes writes none. -/
theorem stepBeforeLoadRaises : Obligations.StepBeforeLoadRaises := by
  unfold Obligations.StepBeforeLoadRaises
  have hhi : unlistedByte 0x200 = 0 := unlistedByte_of_ge (by decide)
  have hlo : unlistedByte 0x201 = 0 := unlistedByte_of_ge (by decide)
  exact fun q => ⟨step_zerosAtLoadOffset rfl rfl hhi hlo, (State.construct q).setProgress .loaded, rfl,
    step_zerosAtLoadOffset rfl rfl hhi hlo⟩

end Sys2Proof.Machine
